-- ==== Sys2Proof/Word.lean ====
section
/-! DEFINITION. The word types of the encoder block (00_scope.md R12: every width is unsigned). -/

namespace Sys2Proof

/-- u8: a pixel component, a byte of the pixel buffer. -/
abbrev Byte := BitVec 8

/-- u15: a Symbol duration in ticks, DUR_W = 15 (00_scope.md R10). -/
abbrev Duration := BitVec 15

/-- u32: a configuration word, INDEX, CAP, the FAULT register, a Symbol word. -/
abbrev U32 := BitVec 32

/-- u64: a command word, an ENCODE result word. -/
abbrev U64 := BitVec 64

end Sys2Proof
end

