-- ==== Sys2Proof/Syntax.lean ====
section
/-! DEFINITION. The commands (30_encoding.md R79), the words that carry them (R73, R78) and the assembler's lines (R85). -/

namespace Sys2Proof

/-- INIT's configuration block: nine u32 words in the order of R78; also the configuration registers 0x00 to 0x08 of
10_state.md R23, which INIT loads from it word by word. -/
structure ConfigBlock where
  signalPin  : U32
  ledCount   : U32
  tickResHz  : U32
  bit0HighNs : U32
  bit0LowNs  : U32
  bit1HighNs : U32
  bit1LowNs  : U32
  latchLowNs : U32
  symBufCap  : U32
  deriving DecidableEq, Repr

/-- The seven commands, one constructor per row of spec/opcode_table.json. Each field has the width its format gives
it (R73), so no ill-formed command can be written. -/
inductive Instr where
  | init (cfg : ConfigBlock)
  | deinit
  | setPixel (index : U32) (r g b : Byte)
  | transmit
  | stop
  | reset
  | encode (cap : U32)
  deriving DecidableEq, Repr

/-- A command as it is issued: the 64-bit word and the nine u32 words that follow it.
Only INIT has a block (R82); beside any other word it is not read (log 12). -/
structure CommandWords where
  word  : U64
  block : ConfigBlock
  deriving DecidableEq, Repr

/-- The mnemonics of R85 and the two pseudo-instructions of R86. -/
inductive Mnemonic where
  | init | deinit | setPixel | transmit | stop | reset | encode | clear | abort
  deriving DecidableEq, Repr

/-- One line of a program: a mnemonic and its operands as written, of any size (R85). -/
structure Line where
  mnemonic : Mnemonic
  operands : List Nat
  deriving DecidableEq, Repr

end Sys2Proof
end

