-- ==== Sys2Proof/WellFormed.lean ====
section
/-! DEFINITION. The checks on what can be ill formed: issued words and assembler lines. A term of `Instr` cannot be. -/

namespace Sys2Proof

/-- The block that stands beside a word with no block operand. -/
def ConfigBlock.zero : ConfigBlock := ⟨0, 0, 0, 0, 0, 0, 0, 0, 0⟩

/-- OPC = w[63:56] (30_encoding.md R73). -/
def CommandWords.opcodeNumber (p : CommandWords) : Nat := p.word.toNat / 2 ^ 56

/-- w[55:0]. -/
def CommandWords.operandNumber (p : CommandWords) : Nat := p.word.toNat % 2 ^ 56

/-- The opcodes that are not reserved are 0x01 to 0x07 (30_encoding.md R79, R81). -/
def CommandWords.opcodeDefined (p : CommandWords) : Bool := decide (1 ≤ p.opcodeNumber ∧ p.opcodeNumber ≤ 7)

/-- The reserved bits of the opcode's format are zero: w[55:0] in formats N and I, w[55:32] in format E, none in
format P (R73 to R77). -/
def CommandWords.reservedClear (p : CommandWords) : Bool :=
  match p.opcodeNumber with
  | 3 => true
  | 7 => decide (p.operandNumber / 2 ^ 32 = 0)
  | _ => decide (p.operandNumber = 0)

/-- Only INIT carries a block (R82). -/
def CommandWords.blockFits (p : CommandWords) : Bool :=
  decide (p.opcodeNumber = 1 ∨ p.block = ConfigBlock.zero)

/-- The words spell a command in its canonical form. -/
def CommandWords.wellFormed (p : CommandWords) : Bool :=
  p.opcodeDefined && p.reservedClear && p.blockFits

/-- How many operands a line has (R85, R86). -/
def Mnemonic.arity : Mnemonic → Nat
  | .init => 9
  | .setPixel => 4
  | .encode => 1
  | _ => 0

/-- Every operand fits its field: bytes up to 0xFF, an index, a capacity and a configuration word up to 0xFFFFFFFF;
one that does not is an assembly error (R85). -/
def Line.operandsFit (l : Line) : Bool :=
  match l.mnemonic, l.operands with
  | .setPixel, i :: rest => decide (i < 2 ^ 32) && rest.all fun x => decide (x < 2 ^ 8)
  | _, xs => xs.all fun x => decide (x < 2 ^ 32)

/-- The line assembles. -/
def Line.wellFormed (l : Line) : Bool :=
  decide (l.operands.length = l.mnemonic.arity) && l.operandsFit

end Sys2Proof
end

