-- ==== Sys2Proof/Decode.lean ====
section
/-! DEFINITION. The decoder (30_encoding.md R80), the encoder (R73 to R79) and the assembler's instruction lists (R85, R86). -/

namespace Sys2Proof

/-- The opcodes of R79. -/
inductive Opcode where
  | init | deinit | setPixel | transmit | stop | reset | encode
  deriving DecidableEq, Repr

/-- R79: the opcode's number. -/
def Opcode.code : Opcode → Byte
  | .init => 0x01
  | .deinit => 0x02
  | .setPixel => 0x03
  | .transmit => 0x04
  | .stop => 0x05
  | .reset => 0x06
  | .encode => 0x07

/-- R79 read backwards: 0x00 and 0x08 to 0xFF are reserved. -/
def Opcode.ofCode (opc : Byte) : Option Opcode :=
  match opc.toNat with
  | 1 => some .init
  | 2 => some .deinit
  | 3 => some .setPixel
  | 4 => some .transmit
  | 5 => some .stop
  | 6 => some .reset
  | 7 => some .encode
  | _ => none

/-- The bits that must be zero in the opcode's format (R73). -/
def Opcode.reservedMask : Opcode → U64
  | .init => 0x00FFFFFFFFFFFFFF
  | .deinit => 0x00FFFFFFFFFFFFFF
  | .setPixel => 0
  | .transmit => 0x00FFFFFFFFFFFFFF
  | .stop => 0x00FFFFFFFFFFFFFF
  | .reset => 0x00FFFFFFFFFFFFFF
  | .encode => 0x00FFFFFF00000000

/-- Why a word spells no command (R80). -/
inductive Illegal where
  | reservedOpcode
  | reservedBits
  deriving DecidableEq, Repr

/-- The decoder's verdict: a command or Illegal (R80), with the reason. -/
inductive Decoded where
  | command (i : Instr)
  | illegal (why : Illegal)
  deriving DecidableEq, Repr

/-- The command with its fields extracted, once the opcode and the reserved bits are accepted (R73 to R78). -/
def Opcode.command (opc : Opcode) (p : CommandWords) : Instr :=
  match opc with
  | .init => .init p.block
  | .deinit => .deinit
  | .setPixel =>
    .setPixel (p.word.extractLsb' 24 32) (p.word.extractLsb' 16 8) (p.word.extractLsb' 8 8) (p.word.extractLsb' 0 8)
  | .transmit => .transmit
  | .stop => .stop
  | .reset => .reset
  | .encode => .encode (p.word.extractLsb' 0 32)

/-- R80, in its order: the opcode, then the reserved bits, then the fields. Total on every word. -/
def decode (p : CommandWords) : Decoded :=
  match Opcode.ofCode (p.word.extractLsb' 56 8) with
  | none => .illegal .reservedOpcode
  | some opc => if p.word &&& opc.reservedMask = 0 then .command (opc.command p) else .illegal .reservedBits

/-- The opcode of a command (R79). -/
def Instr.opcode : Instr → Opcode
  | .init _ => .init
  | .deinit => .deinit
  | .setPixel _ _ _ _ => .setPixel
  | .transmit => .transmit
  | .stop => .stop
  | .reset => .reset
  | .encode _ => .encode

/-- The operand bits w[55:0] of a command (R73 to R77). -/
def Instr.operandBits : Instr → BitVec 56
  | .init _ => 0
  | .deinit => 0
  | .setPixel index r g b => index ++ r ++ g ++ b
  | .transmit => 0
  | .stop => 0
  | .reset => 0
  | .encode cap => (0 : BitVec 24) ++ cap

/-- INIT's block (R78); every other command has none. -/
def Instr.block : Instr → ConfigBlock
  | .init cfg => cfg
  | .deinit => ConfigBlock.zero
  | .setPixel _ _ _ _ => ConfigBlock.zero
  | .transmit => ConfigBlock.zero
  | .stop => ConfigBlock.zero
  | .reset => ConfigBlock.zero
  | .encode _ => ConfigBlock.zero

/-- The words of a command (R73 to R79). -/
def encode (i : Instr) : CommandWords :=
  { word := i.opcode.code ++ i.operandBits, block := i.block }

/-- The nine u32 words of a block numbered on from bit 0 (R78: word 0 first). -/
def ConfigBlock.ofNat (n : Nat) : ConfigBlock :=
  let word (k : Nat) : U32 := BitVec.ofNat 32 (n / 2 ^ (32 * k))
  ⟨word 0, word 1, word 2, word 3, word 4, word 5, word 6, word 7, word 8⟩

/-- An issued command from its first `nbits` bits, bit 0 the least significant bit of the command word, the words of
the block counting on from bit 64; every bit from `nbits` up is zero. -/
def CommandWords.ofBits (nbits w : Nat) : CommandWords :=
  let bits := w % 2 ^ nbits
  { word := BitVec.ofNat 64 bits, block := ConfigBlock.ofNat (bits / 2 ^ 64) }

/-- The instruction the decoder reads from a word of spec/opcode_table.json, none where it is Illegal. -/
def decodeTableWord (nbits w : Nat) : Option Instr :=
  match decode (CommandWords.ofBits nbits w) with
  | .command i => some i
  | .illegal _ => none

/-- CLEAR (R86): SET_PIXEL i, 0, 0, 0 for i = 0 .. LED_COUNT − 1 in that order. -/
def clearCommands (ledCount : Nat) : List Instr :=
  (List.range ledCount).map fun i => .setPixel (BitVec.ofNat 32 i) 0 0 0

/-- ABORT (R86): STOP then RESET. -/
def abortCommands : List Instr := [.stop, .reset]

/-- The commands of a well-formed line, none where the line is an assembly error (R85, R86). CLEAR needs the LED_COUNT
the program was written for. -/
def assemble (ledCount : Nat) (l : Line) : Option (List Instr) :=
  if l.wellFormed then
    match l.mnemonic, l.operands.map (BitVec.ofNat 32) with
    | .init, [pin, leds, hz, b0h, b0l, b1h, b1l, latch, cap] =>
      some [.init ⟨pin, leds, hz, b0h, b0l, b1h, b1l, latch, cap⟩]
    | .deinit, _ => some [.deinit]
    | .setPixel, [index, r, g, b] => some [.setPixel index (r.setWidth 8) (g.setWidth 8) (b.setWidth 8)]
    | .transmit, _ => some [.transmit]
    | .stop, _ => some [.stop]
    | .reset, _ => some [.reset]
    | .encode, [cap] => some [.encode cap]
    | .clear, _ => some (clearCommands ledCount)
    | .abort, _ => some abortCommands
    | _, _ => none
  else none

end Sys2Proof
end

