-- ==== Sys2Proof/Config.lean ====
section
/-! DEFINITION. What a platform fixes (00_scope.md R10) and what nothing fixes (the draws of R11). -/

namespace Sys2Proof

/-- CHANNEL_ORDER (R10, 20_memory.md R53): the order in which the three components stand in the pixel buffer. -/
inductive ChannelOrder where
  | rgb | rbg | grb | gbr | brg | bgr
  deriving DecidableEq, Repr

/-- INIT_FILL (R10): what a byte of a new pixel buffer holds. -/
inductive InitFill where
  | undef | zero
  deriving DecidableEq, Repr

/-- The model arguments and OPEN parameters of R10, each an argument of the instance. No step changes them.
DESIGN CHOICE (log 6): they are data of State, so a statement about every state is one about every platform. -/
structure Params where
  channelOrder : ChannelOrder
  initFill     : InitFill
  /-- MAX_LED_COUNT, OPEN. -/
  maxLedCount  : Nat
  /-- PIN_VALID, OPEN, as the list of the pins it refuses. DEDUCED (log 7): a predicate on u32 has finitely many. -/
  invalidPins  : List U32
  /-- NUM_CHANNELS, OPEN. -/
  numChannels  : Nat
  deriving DecidableEq, Repr

/-- The bounds R10 puts on the OPEN parameters. -/
abbrev Params.wf (p : Params) : Prop := p.maxLedCount ≤ 178956970 ∧ 1 ≤ p.numChannels

/-! The free values behind the draws of R11, applied to the instance's index and to a counter in its state (log 4),
the schedule's to a counter of the whole system (log 3). None has a body: nothing can be proved of a value of theirs. -/

/-- ALLOC_OK, one per INIT. -/
opaque Config.freeAllocOk : Nat → Nat → Bool
/-- CHAN_ACCEPT, one per TRANSMIT from an idle instance. -/
opaque Config.freeChanAccept : Nat → Nat → Bool
/-- CHAN_CAP, one per CHAN_ENCODE. -/
opaque Config.freeChanCap : Nat → Nat → Nat
/-- STOP_K, one per STOP of an active instance. -/
opaque Config.freeStopK : Nat → Nat → Nat
/-- Which of the enabled steps comes next. -/
opaque Config.freeSchedule : Nat → Nat

end Sys2Proof
end

