-- ==== Sys2Proof/Machine/State.lean ====
section
/-! DEFINITION. Everything the spec gives the block to hold (10_state.md), the inputs of its steps as plain data, and
the state at power-on. -/

namespace Sys2Proof.Machine

open Sys2Proof

/-- A Symbol (40_symbols.md R100). Its 32-bit word is `Symbol.word` (30_encoding.md R70). -/
structure Symbol where
  level0    : Bool
  duration0 : Duration
  level1    : Bool
  duration1 : Duration
  deriving DecidableEq, Repr

/-- PHASE (10_state.md R26). -/
inductive Phase where
  | sending | latching
  deriving DecidableEq, Repr

/-- TX_STATE (10_state.md R31). The code 3 is never held, so the type has no fourth value. -/
inductive TxState where
  | idle | encoding | draining
  deriving DecidableEq, Repr

/-- What one ENCODE call reports (00_scope.md R17). -/
inductive Status where
  | inProgress | bufferFull | frameComplete
  deriving DecidableEq, Repr

/-- An event of LOG (10_state.md R35). -/
inductive Event where
  | sym (s : Symbol)
  | done
  | halt (k : Nat)
  deriving DecidableEq, Repr

/-- The sub-cause of a ConstructionError (30_encoding.md R83). -/
inductive Cause where
  | timing | config | alloc
  deriving DecidableEq, Repr

/-- The nine fault codes of 60_exceptions.md R233. -/
inductive FaultCode where
  | illegalCommand | notInitialized | doubleInit | pixelWriteInFlight | txWhileInFlight
  | deinitInFlight | resetWhileActive | encodeConflict | uninitPixelRead
  deriving DecidableEq, Repr

/-- What a command returns to the Host (30_encoding.md R83, R84). -/
inductive Reply where
  | ok
  | encoded (count : Nat) (status : Status) (symbols : List Symbol)
  | indexOutOfRange
  | channelBusy
  | constructionError (cause : Cause)
  | faulted
  deriving DecidableEq, Repr

/-- PB (10_state.md R33, 20_memory.md R50): a byte offset that `cells` does not list reads as `fill` says (log 13).
The cells are kept in one canonical form, `Memory.wf`. -/
structure Memory where
  fill  : InitFill
  cells : List Host.Cell
  deriving DecidableEq, Repr

/-- What an instance holds between INIT and DEINIT, and only then (10_state.md R38): the configuration registers
(R23), the template registers (R25), the encoder registers (R26 to R28), TX_STATE (R31), PB (R33) and FIFO (R34). -/
structure Handle where
  cfg         : ConfigBlock
  bit0        : Symbol
  bit1        : Symbol
  latch       : Symbol
  phase       : Phase
  /-- BIT_CURSOR counts up to 8·L and never wraps (R27, R30), so it is a natural (log 9). -/
  bitCursor   : Nat
  /-- LATCH_CURSOR is 0 or 1 (R28). -/
  latchCursor : Fin 2
  txState     : TxState
  pb          : Memory
  fifo        : List Symbol
  deriving DecidableEq, Repr

/-- The values of an instance's draws (00_scope.md R11) that are given ahead, oldest first, and the counter the free
values beyond them are applied to. DESIGN CHOICE (log 4): the model's own field, no state of the block. -/
structure Draws where
  allocOk    : List Bool
  chanAccept : List Bool
  chanCap    : List Nat
  stopK      : List Nat
  taken      : Nat
  deriving DecidableEq, Repr

/-- One instance (10_state.md R20). `handle` is none exactly while INITED is false (R22, R38; log 8).
`prog`, `replies` and `draws` are the model's own: the Host's program, its results, the draws (log 1, 2, 4). -/
structure Instance where
  /-- Its parameters, arguments of the instance (00_scope.md R10; log 6). -/
  par     : Params
  handle  : Option Handle
  /-- FAULT (R32). -/
  fault   : U32
  /-- LOG (R35). -/
  log     : List Event
  prog    : List CommandWords
  replies : List Reply
  draws   : Draws
  deriving DecidableEq, Repr

/-- The agent steps of 60_exceptions.md R246. -/
inductive Move where
  | host | chanEncode | lineEmit | txDone
  deriving DecidableEq, Repr

/-- A choice of the schedule: an instance by its index (60_exceptions.md R250) and one of its agents' steps. -/
structure Choice where
  slot : Nat
  move : Move
  deriving DecidableEq, Repr

/-- The system: the instances in the order of their index with one of them in focus
(log 11), and the schedule (log 3). A command acts on the instance in focus. -/
structure State where
  before : List Instance
  inst   : Instance
  after  : List Instance
  sched  : List Choice
  turns  : Nat
  deriving DecidableEq, Repr

/-- Why the machine stops. The spec's own faults are bits of FAULT, not stops. -/
inductive Fault where
  /-- Raised by `step` alone, when no agent of any instance has an enabled step (60_exceptions.md R252): the block
  waits for a command that the state does not hold. Safe: the hardware then takes no step either (log 10). -/
  | noEnabledStep
  deriving DecidableEq, Repr

/-- Why an instruction has no meaning. -/
inductive Refusal where
  /-- Raised by `exec` for an instruction not modelled yet. No arm is left that raises it. Safe. -/
  | notModelled (mnemonic : String)
  deriving DecidableEq, Repr

/-- No draw given ahead. -/
def Draws.none : Draws := ⟨[], [], [], [], 0⟩

/-- The parameters at reset: R10's defaults of CHANNEL_ORDER and INIT_FILL.
DESIGN CHOICE (log 6): the three OPEN ones. -/
def Params.atReset : Params :=
  { channelOrder := .grb, initFill := .undef, maxLedCount := 178956970, invalidPins := [], numChannels := 1 }

/-- An instance at power-on (10_state.md R38, 70_reset_and_hazards.md R260), with no command waiting. -/
def Instance.powerOn (par : Params) : Instance :=
  { par := par, handle := .none, fault := 0, log := [], prog := [], replies := [], draws := Draws.none }

/-- The system at power-on: one instance, nothing scheduled (R260; log 3, 6, 11). -/
def State.reset : State :=
  { before := [], inst := Instance.powerOn Params.atReset, after := [], sched := [], turns := 0 }

end Sys2Proof.Machine
end

