-- ==== Sys2Proof/Machine/Flags.lean ====
section
/-! DEFINITION. The block has no condition flags (41_sub_encoders.md R131). Its status codes: the FAULT bits
(60_exceptions.md R233), the result codes (30_encoding.md R83, R84) and the codes of the small registers. -/

namespace Sys2Proof.Machine

open Sys2Proof

/-- The bit of FAULT a code sets (60_exceptions.md R233). -/
def FaultCode.bit : FaultCode → Nat
  | .illegalCommand => 0
  | .notInitialized => 1
  | .doubleInit => 2
  | .pixelWriteInFlight => 3
  | .txWhileInFlight => 4
  | .deinitInFlight => 5
  | .resetWhileActive => 6
  | .encodeConflict => 7
  | .uninitPixelRead => 8

/-- FAULT with only that bit set. -/
def FaultCode.mask (c : FaultCode) : U32 := BitVec.ofNat 32 (2 ^ c.bit)

/-- PHASE as its bit (10_state.md R26). -/
def Phase.code : Phase → BitVec 1
  | .sending => 0
  | .latching => 1

/-- TX_STATE as its two bits (10_state.md R31). -/
def TxState.code : TxState → BitVec 2
  | .idle => 0
  | .encoding => 1
  | .draining => 2

/-- STATUS (30_encoding.md R84). -/
def Status.code : Status → BitVec 2
  | .inProgress => 0
  | .bufferFull => 1
  | .frameComplete => 2

/-- CAUSE (30_encoding.md R83). -/
def Cause.code : Cause → Nat
  | .timing => 1
  | .config => 2
  | .alloc => 3

/-- RES (30_encoding.md R83). -/
def Reply.res : Reply → Byte
  | .ok => 0x00
  | .encoded _ _ _ => 0x00
  | .indexOutOfRange => 0x01
  | .channelBusy => 0x02
  | .constructionError _ => 0x03
  | .faulted => 0xFF

/-- CAUSE of a result that has one (30_encoding.md R83). -/
def Reply.cause : Reply → Option Nat
  | .constructionError c => some c.code
  | _ => none

/-- The 64-bit result word of a successful ENCODE (30_encoding.md R84): RES, 22 zero bits, STATUS, COUNT. -/
def encodeResultWord (count : Nat) (status : Status) : U64 :=
  (0x00 : BitVec 8) ++ (0 : BitVec 22) ++ status.code ++ BitVec.ofNat 32 count

end Sys2Proof.Machine
end

