-- ==== Sys2Proof/Machine/Operands.lean ====
section
/-! DEFINITION. How operands and stored words are read: the Symbol word (30_encoding.md R70, R71), the channel order
(20_memory.md R53), pin validity (00_scope.md R10) and the bits of the byte stream (20_memory.md R56). -/

namespace Sys2Proof.Machine

open Sys2Proof

/-- The Symbol word (R70): level1, duration1, level0, duration0 from the top bit down. -/
def Symbol.word (s : Symbol) : U32 :=
  BitVec.ofBool s.level1 ++ s.duration1 ++ BitVec.ofBool s.level0 ++ s.duration0

/-- Every 32-bit word is a Symbol (R71). -/
def Symbol.ofWord (w : U32) : Symbol :=
  { level0 := w.getLsbD 15, duration0 := w.extractLsb' 0 15, level1 := w.getLsbD 31, duration1 := w.extractLsb' 16 15 }

/-- How long a Symbol holds the line, in ticks (40_symbols.md R101): data carried to the wire, read by no step. -/
def Symbol.ticks (s : Symbol) : Nat := s.duration0.toNat + s.duration1.toNat

/-- The components in the order in which they stand in the pixel buffer (R53). -/
def arrange (order : ChannelOrder) (r g b : Byte) : Byte × Byte × Byte :=
  match order with
  | .rgb => (r, g, b)
  | .rbg => (r, b, g)
  | .grb => (g, r, b)
  | .gbr => (g, b, r)
  | .brg => (b, r, g)
  | .bgr => (b, g, r)

/-- PIN_VALID (00_scope.md R10). -/
def pinValid (par : Params) (pin : U32) : Bool := !par.invalidPins.contains pin

/-- What a byte of a new pixel buffer reads as, none for undef (10_state.md R38). -/
def fillByte : InitFill → Option Byte
  | .undef => none
  | .zero => some 0

/-- The byte of the stream that holds bit c (20_memory.md R56). -/
def byteOfBit (c : Nat) : Nat := c / 8

/-- Bit c of the stream, given its byte: bit 7 − (c mod 8), most significant first (20_memory.md R55, R56). -/
def bitOfByte (c : Nat) (b : Byte) : Bool := b.getLsbD (7 - c % 8)

end Sys2Proof.Machine
end

