-- ==== Sys2Proof/Machine/Ops.lean ====
section
/-! DEFINITION. The named operations over the pixel buffer, an instance's registers and draws, and the ONE way a fault
is raised (60_exceptions.md R232). There is no return from a fault (60_exceptions.md R243). -/

namespace Sys2Proof.Machine

open Sys2Proof

/-! ## The pixel buffer -/

/-- The byte the cells list for `a`, if they list it. -/
def cellAt (a : Nat) : List Host.Cell → Option Byte
  | [] => none
  | (x, v) :: rest => if x = a then some v else cellAt a rest

/-- The cells with `a` taken out of a rising list, or set to `v`. -/
def cellSet (a : Nat) (v : Option Byte) : List Host.Cell → List Host.Cell
  | [] => (v.map (Prod.mk a)).toList
  | (x, w) :: rest =>
    if a < x then (v.map (Prod.mk a)).toList ++ (x, w) :: rest
    else if a = x then (v.map (Prod.mk a)).toList ++ rest
    else (x, w) :: cellSet a v rest

/-- MemRead(a, 1) (20_memory.md R52): a byte, or none for undef. -/
def Memory.read (m : Memory) (a : Nat) : Option Byte :=
  match cellAt a m.cells with
  | some v => some v
  | none => fillByte m.fill

/-- MemWrite(a, 1, v) (20_memory.md R52). A cell that would equal what an unlisted byte reads as is not listed. -/
def Memory.write (m : Memory) (a : Nat) (v : Byte) : Memory :=
  { m with cells := cellSet a (if fillByte m.fill = some v then none else some v) m.cells }

/-- A new pixel buffer (43_strip_handle.md R174). -/
def Memory.fresh (fill : InitFill) : Memory := { fill := fill, cells := [] }

/-- The canonical form: addresses strictly rising, no cell equal to what an unlisted byte reads as. -/
abbrev Memory.wf (m : Memory) : Prop :=
  m.cells.Pairwise (fun x y => x.1 < y.1) ∧ ∀ c ∈ m.cells, fillByte m.fill ≠ some c.2

/-! ## A handle's derived quantities -/

/-- L, the length of the byte stream (10_state.md R24). -/
def Handle.len (h : Handle) : Nat := 3 * h.cfg.ledCount.toNat

/-- 8·L, the number of bits of a frame. -/
def Handle.bits (h : Handle) : Nat := 8 * h.len

/-- The free space of the symbol buffer (44_channel.md R210). -/
def Handle.free (h : Handle) : Nat := h.cfg.symBufCap.toNat - h.fifo.length

/-- The encoder back at the start of a frame: (Sending, 0, 0) (42_composite_encoder.md R146, R150). -/
def Handle.rewind (h : Handle) : Handle := { h with phase := .sending, bitCursor := 0, latchCursor := 0 }

/-! ## An instance -/

/-- INITED (10_state.md R22). -/
def Instance.inited (i : Instance) : Bool := i.handle.isSome

/-- A fault is recorded, so the instance is quiescent (60_exceptions.md R232). -/
def Instance.quiescent (i : Instance) : Bool := decide (i.fault ≠ 0)

/-- Sets the code's FAULT bit and nothing else (60_exceptions.md R232, effects 1 and 2). -/
def Instance.raise (i : Instance) (c : FaultCode) : Instance := { i with fault := i.fault ||| c.mask }

/-- The oldest value given ahead, else the free one. -/
def drawn {α : Type} (ahead : List α) (free : α) : α := ahead.headD free

/-- ALLOC_OK of the instance at index k (00_scope.md R11). -/
def Instance.allocOk (i : Instance) (k : Nat) : Bool := drawn i.draws.allocOk (Config.freeAllocOk k i.draws.taken)

/-- CHAN_ACCEPT (00_scope.md R11). -/
def Instance.chanAccept (i : Instance) (k : Nat) : Bool :=
  drawn i.draws.chanAccept (Config.freeChanAccept k i.draws.taken)

/-- CHAN_CAP in 0 .. free space (00_scope.md R11, 44_channel.md R210): the drawn natural's remainder (log 5). -/
def Instance.chanCap (i : Instance) (k : Nat) (h : Handle) : Nat :=
  drawn i.draws.chanCap (Config.freeChanCap k i.draws.taken) % (h.free + 1)

/-- STOP_K in 0 .. |FIFO| (00_scope.md R11): the drawn natural's remainder (log 5). -/
def Instance.stopK (i : Instance) (k : Nat) (h : Handle) : Nat :=
  drawn i.draws.stopK (Config.freeStopK k i.draws.taken) % (h.fifo.length + 1)

/-- The draws once ALLOC_OK is taken. -/
def Draws.pastAllocOk (d : Draws) : Draws := { d with allocOk := d.allocOk.tail, taken := d.taken + 1 }

/-- The draws once CHAN_ACCEPT is taken. -/
def Draws.pastChanAccept (d : Draws) : Draws := { d with chanAccept := d.chanAccept.tail, taken := d.taken + 1 }

/-- The draws once CHAN_CAP is taken. -/
def Draws.pastChanCap (d : Draws) : Draws := { d with chanCap := d.chanCap.tail, taken := d.taken + 1 }

/-- The draws once STOP_K is taken. -/
def Draws.pastStopK (d : Draws) : Draws := { d with stopK := d.stopK.tail, taken := d.taken + 1 }

/-! ## The system -/

/-- The index of the instance in focus (60_exceptions.md R250). -/
def State.slot (s : State) : Nat := s.before.length

/-- The instances in the order of their index. -/
def State.instances (s : State) : List Instance := s.before ++ s.inst :: s.after

/-- As many instances as the NUM_CHANNELS of the one in focus are initialised already (43_strip_handle.md R172). -/
def State.channelsFull (s : State) : Bool :=
  decide (s.inst.par.numChannels ≤ (s.instances.filter Instance.inited).length)

/-- The instance in focus after a step of its own. -/
def State.setInst (s : State) (i : Instance) : State := { s with inst := i }

/-- Writes the handle of the instance in focus. -/
def State.setHandle (s : State) (h : Option Handle) : State := s.setInst { s.inst with handle := h }

/-- Returns a result to the Host (30_encoding.md R83). -/
def State.answer (s : State) (r : Reply) : State := s.setInst { s.inst with replies := s.inst.replies ++ [r] }

/-- raise Fault(code) by a Host command (00_scope.md R13, 60_exceptions.md R232): the bit is set, the command returns
Faulted and has no other effect. -/
def State.raise (s : State) (c : FaultCode) : State := (s.setInst (s.inst.raise c)).answer .faulted

/-- The draws of the instance in focus, once one is taken. -/
def State.setDraws (s : State) (d : Draws) : State := s.setInst { s.inst with draws := d }

/-! ## The checks before a command's effect, in the order of 60_exceptions.md R240 -/

/-- A command to a quiescent instance returns Faulted and raises nothing further (60_exceptions.md R232, effect 4). -/
def State.ifAlive (s : State) (k : State) : State := if s.inst.quiescent then s.answer .faulted else k

/-- INITED is checked first (60_exceptions.md R236). -/
def State.ifInited (s : State) (k : Handle → State) : State :=
  s.ifAlive (match s.inst.handle with
    | none => s.raise .notInitialized
    | some h => k h)

/-- Then that no frame is in flight (60_exceptions.md R233, faults 3 to 7). -/
def State.ifIdle (s : State) (inFlight : FaultCode) (k : Handle → State) : State :=
  s.ifInited fun h => if h.txState = .idle then k h else s.raise inFlight

/-- A word the decoder calls Illegal (30_encoding.md R81). -/
def State.issueIllegal (s : State) : State := s.ifAlive (s.raise .illegalCommand)

end Sys2Proof.Machine
end

