-- ==== Sys2Proof/Machine/SubEncoders.lean ====
section
/-! DEFINITION. The Bit Encoder and the Latch Encoder (41_sub_encoders.md), internal functions of ENCODE. -/

namespace Sys2Proof.Machine

open Sys2Proof

/-- What a sub-encoder call gives: k, done, the Symbols emitted, and the handle with its cursor advanced. -/
structure SubResult where
  count   : Nat
  done    : Bool
  symbols : List Symbol
  handle  : Handle
  deriving DecidableEq, Repr

/-- The Symbol of a stream bit (41_sub_encoders.md R121). -/
def Handle.symbolFor (h : Handle) (bit : Bool) : Symbol := if bit then h.bit1 else h.bit0

/-- The Symbol of stream bit c, none where its byte is undef (20_memory.md R56, R64). -/
def Handle.symbolAt (h : Handle) (c : Nat) : Option Symbol :=
  (h.pb.read (byteOfBit c)).map fun b => h.symbolFor (bitOfByte c b)

/-- The Symbols of the k stream bits from c on, none if one of their bytes is undef (41_sub_encoders.md R120). -/
def Handle.emitBits (h : Handle) : Nat → Nat → Option (List Symbol)
  | 0, _ => some []
  | k + 1, c =>
    match h.symbolAt c with
    | none => none
    | some sym =>
      match h.emitBits k (c + 1) with
      | none => none
      | some rest => some (sym :: rest)

/-- BitEncode(cap) (41_sub_encoders.md R120 to R125), none where it raises UNINIT_PIXEL_READ. The loop of R120 runs
min(cap, 8·L − BIT_CURSOR) times (R122). -/
def bitEncode (cap : Nat) (h : Handle) : Option SubResult :=
  if cap = 0 then some { count := 0, done := false, symbols := [], handle := h }
  else
    let k := min cap (h.bits - h.bitCursor)
    match h.emitBits k h.bitCursor with
    | none => none
    | some syms =>
      some { count := k, done := decide (h.bitCursor + k = h.bits), symbols := syms,
             handle := { h with bitCursor := h.bitCursor + k } }

/-- LatchEncode(cap) (41_sub_encoders.md R126 to R129). -/
def latchEncode (cap : Nat) (h : Handle) : SubResult :=
  if h.latchCursor = 1 then { count := 0, done := true, symbols := [], handle := h }
  else if cap = 0 then { count := 0, done := false, symbols := [], handle := h }
  else { count := 1, done := true, symbols := [h.latch], handle := { h with latchCursor := 1 } }

end Sys2Proof.Machine
end

