-- ==== Sys2Proof/Machine/Composite.lean ====
section
/-! DEFINITION. The Composite Protocol Encoder (42_composite_encoder.md): the transition Encode, ENCODE and RESET. -/

namespace Sys2Proof.Machine

open Sys2Proof

/-- What one Encode call gives (42_composite_encoder.md R140): COUNT, STATUS, the Symbols, the handle after it. -/
structure Encoded where
  count   : Nat
  status  : Status
  symbols : List Symbol
  handle  : Handle
  deriving DecidableEq, Repr

/-- The latch step of Encode (R142), `n` Symbols being emitted already by the same call. -/
def latchStep (cap n : Nat) (emitted : List Symbol) (h : Handle) : Encoded :=
  let l := latchEncode (cap - n) h
  if l.done then
    { count := n + l.count, status := .frameComplete, symbols := emitted ++ l.symbols, handle := l.handle.rewind }
  else
    { count := n + l.count, status := .bufferFull, symbols := emitted ++ l.symbols, handle := l.handle }

/-- Encode(cap) (R140 to R146), none where the Bit Encoder raises UNINIT_PIXEL_READ (R147). -/
def encodeCall (cap : Nat) (h : Handle) : Option Encoded :=
  if cap = 0 then some { count := 0, status := .inProgress, symbols := [], handle := h }
  else
    match h.phase with
    | .latching => some (latchStep cap 0 [] h)
    | .sending =>
      match bitEncode cap h with
      | none => none
      | some b =>
        if b.done then some (latchStep cap b.count b.symbols { b.handle with phase := .latching })
        else some { count := b.count, status := .bufferFull, symbols := b.symbols, handle := b.handle }

/-- ENCODE by the Host (R148): on an idle instance, the Symbols go back to the Host, FIFO and LOG unchanged; a read of
an undef byte raises the fault and rolls the call back (R147). -/
def execEncode (cap : U32) (s : State) : Host.Outcome State Fault Refusal :=
  .next (s.ifIdle .encodeConflict fun h =>
    match encodeCall cap.toNat h with
    | none => s.raise .uninitPixelRead
    | some e => (s.setHandle (some e.handle)).answer (.encoded e.count e.status e.symbols))

/-- RESET (R150). -/
def execReset (s : State) : Host.Outcome State Fault Refusal :=
  .next (s.ifIdle .resetWhileActive fun h => (s.setHandle (some h.rewind)).answer .ok)

end Sys2Proof.Machine
end

