-- ==== Sys2Proof/Machine/Channel.lean ====
section
/-! DEFINITION. The steps of the Channel and the Line (44_channel.md), when each is enabled, and the schedule's choice
among the enabled steps of all instances (60_exceptions.md R246). -/

namespace Sys2Proof.Machine

open Sys2Proof

/-! ## When a step is enabled -/

/-- The enabling condition of an agent step on an instance. A quiescent instance has no enabled Channel or Line step
(60_exceptions.md R232), an uninitialised one neither (R236); its Host may go on. -/
def Instance.ready (i : Instance) (m : Move) : Bool :=
  match m, i.handle with
  | .host, _ => !i.prog.isEmpty
  | _, none => false
  | .chanEncode, some h => !i.quiescent && decide (h.txState = .encoding)
  | .lineEmit, some h => !i.quiescent && decide (h.txState ≠ .idle) && !h.fifo.isEmpty
  | .txDone, some h => !i.quiescent && decide (h.txState = .draining) && h.fifo.isEmpty

/-- The enabled steps of an instance. -/
def Instance.moves (i : Instance) : List Move :=
  [Move.host, .chanEncode, .lineEmit, .txDone].filter fun m => i.ready m

/-! ## The steps themselves -/

/-- TX_STATE after a CHAN_ENCODE that reported `status` (44_channel.md R211). -/
def TxState.afterEncode (t : TxState) (status : Status) : TxState :=
  if status = .frameComplete then .draining else t

/-- CHAN_ENCODE (44_channel.md R211) with the capacity `cap`: a read of an undef byte sets the fault bit and has no
other effect on the block (R147). -/
def Instance.chanEncode (i : Instance) (h : Handle) (cap : Nat) : Instance :=
  let j := { i with draws := i.draws.pastChanCap }
  match encodeCall cap h with
  | none => j.raise .uninitPixelRead
  | some e =>
    { j with handle := some { e.handle with
        fifo := h.fifo ++ e.symbols, txState := h.txState.afterEncode e.status } }

/-- LINE_EMIT (44_channel.md R214). -/
def Instance.lineEmit (i : Instance) (h : Handle) : Instance :=
  match h.fifo with
  | [] => i
  | sym :: rest => { i with handle := some { h with fifo := rest }, log := i.log ++ [.sym sym] }

/-- TX_DONE (44_channel.md R217). -/
def Instance.txDone (i : Instance) (h : Handle) : Instance :=
  { i with handle := some { h with txState := .idle }, log := i.log ++ [.done] }

/-- A step of the Channel or the Line of the instance in focus. -/
def State.agentStep (s : State) (m : Move) : State :=
  match m, s.inst.handle with
  | .host, _ => s
  | _, none => s
  | .chanEncode, some h => s.setInst (s.inst.chanEncode h (s.inst.chanCap s.slot h))
  | .lineEmit, some h => s.setInst (s.inst.lineEmit h)
  | .txDone, some h => s.setInst (s.inst.txDone h)

/-! ## The schedule -/

/-- The choice names an enabled step. -/
def State.allows (s : State) (c : Choice) : Bool :=
  match s.instances[c.slot]? with
  | some i => i.ready c.move
  | none => false

/-- Every enabled step of the system, by index and then by agent. -/
def State.enabled (s : State) : List Choice :=
  (List.range s.instances.length).flatMap fun k =>
    match s.instances[k]? with
    | some i => i.moves.map fun m => { slot := k, move := m }
    | none => []

/-- The free choice among the enabled steps; the one enabled step where there is only one. -/
def State.freeChoice (s : State) : Option Choice :=
  match s.enabled with
  | [] => none
  | [c] => some c
  | c :: cs => some ((c :: cs)[Config.freeSchedule s.turns % (c :: cs).length]?.getD c)

/-- The schedule from its first entry that names an enabled step (log 3). -/
def State.schedule (s : State) : List Choice := s.sched.dropWhile fun c => !s.allows c

/-- The step taken next: any one enabled step (60_exceptions.md R241, R246). -/
def State.nextChoice (s : State) : Option Choice :=
  match s.schedule with
  | c :: _ => some c
  | [] => s.freeChoice

/-- The instance at index k in focus. -/
def State.focus (s : State) (k : Nat) : State :=
  match s.instances[k]? with
  | some i => { s with before := s.instances.take k, inst := i, after := s.instances.drop (k + 1) }
  | none => s

/-- The system about to take the chosen step: its instance in focus, the schedule moved on. -/
def State.turn (s : State) (c : Choice) : State :=
  { s.focus c.slot with sched := s.schedule.tail, turns := s.turns + 1 }

end Sys2Proof.Machine
end

