-- ==== Sys2Proof/Machine/Construction.lean ====
section
/-! DEFINITION. The construction arithmetic of INIT (40_symbols.md) and its checks (43_strip_handle.md R172). -/

namespace Sys2Proof.Machine

open Sys2Proof

/-- t(n): n nanoseconds in ticks, truncated (40_symbols.md R102). -/
def ticksOf (hz : U32) (ns : U32) : Nat := ns.toNat * hz.toNat / 1000000000

/-- The five tick counts of 40_symbols.md R103. -/
structure Ticks where
  t0h : Nat
  t0l : Nat
  t1h : Nat
  t1l : Nat
  tl  : Nat
  deriving DecidableEq, Repr

/-- 40_symbols.md R103. -/
def ticks (cfg : ConfigBlock) : Ticks :=
  { t0h := ticksOf cfg.tickResHz cfg.bit0HighNs
    t0l := ticksOf cfg.tickResHz cfg.bit0LowNs
    t1h := ticksOf cfg.tickResHz cfg.bit1HighNs
    t1l := ticksOf cfg.tickResHz cfg.bit1LowNs
    tl  := ticksOf cfg.tickResHz cfg.latchLowNs }

/-- A tick count fits a Symbol duration and is not zero (40_symbols.md R104). -/
def tickLegal (t : Nat) : Bool := decide (1 ≤ t ∧ t ≤ 32767)

/-- The range check of R104 and the asymmetry of R105. -/
def timingLegal (t : Ticks) : Bool :=
  tickLegal t.t0h && tickLegal t.t0l && tickLegal t.t1h && tickLegal t.t1l && tickLegal t.tl && decide (t.t0h < t.t1h)

/-- BIT0_SYM (40_symbols.md R106). -/
def bit0Template (t : Ticks) : Symbol :=
  { level0 := true, duration0 := BitVec.ofNat 15 t.t0h, level1 := false, duration1 := BitVec.ofNat 15 t.t0l }

/-- BIT1_SYM (40_symbols.md R106). -/
def bit1Template (t : Ticks) : Symbol :=
  { level0 := true, duration0 := BitVec.ofNat 15 t.t1h, level1 := false, duration1 := BitVec.ofNat 15 t.t1l }

/-- LATCH_SYM: low in both halves, TL ticks each (40_symbols.md R106). -/
def latchTemplate (t : Ticks) : Symbol :=
  { level0 := false, duration0 := BitVec.ofNat 15 t.tl, level1 := false, duration1 := BitVec.ofNat 15 t.tl }

/-- The first check of INIT that fails, of checks 1 to 4 of 43_strip_handle.md R172, as its sub-cause. -/
def constructionFault (par : Params) (cfg : ConfigBlock) : Option Cause :=
  if pinValid par cfg.signalPin = false then some .config
  else if cfg.ledCount.toNat = 0 ∨ par.maxLedCount < cfg.ledCount.toNat then some .config
  else if cfg.symBufCap.toNat = 0 then some .config
  else if timingLegal (ticks cfg) = false then some .timing
  else none

/-- What a successful INIT writes (43_strip_handle.md R174). -/
def Handle.fresh (par : Params) (cfg : ConfigBlock) : Handle :=
  { cfg := cfg
    bit0 := bit0Template (ticks cfg)
    bit1 := bit1Template (ticks cfg)
    latch := latchTemplate (ticks cfg)
    phase := .sending
    bitCursor := 0
    latchCursor := 0
    txState := .idle
    pb := Memory.fresh par.initFill
    fifo := [] }

end Sys2Proof.Machine
end

