-- ==== Sys2Proof/Machine/StripHandle.lean ====
section
/-! DEFINITION. The Strip Handle's commands (43_strip_handle.md): INIT, DEINIT, SET_PIXEL, TRANSMIT, STOP. -/

namespace Sys2Proof.Machine

open Sys2Proof

/-- INIT (R170 to R175). ALLOC_OK is false without a draw while NUM_CHANNELS instances are initialised (R172; log 15). -/
def execInit (cfg : ConfigBlock) (s : State) : Host.Outcome State Fault Refusal :=
  .next (s.ifAlive (
    if s.inst.inited then s.raise .doubleInit
    else match constructionFault s.inst.par cfg with
      | some cause => s.answer (.constructionError cause)
      | none =>
        if s.channelsFull then s.answer (.constructionError .alloc)
        else
          let t := s.setDraws s.inst.draws.pastAllocOk
          if s.inst.allocOk s.slot then (t.setHandle (some (Handle.fresh s.inst.par cfg))).answer .ok
          else t.answer (.constructionError .alloc)))

/-- DEINIT (R178): the handle goes, FAULT and LOG stay. -/
def execDeinit (s : State) : Host.Outcome State Fault Refusal :=
  .next (s.ifIdle .deinitInFlight fun _ => (s.setHandle none).answer .ok)

/-- The three bytes of pixel `index` (20_memory.md R53, 43_strip_handle.md R181). -/
def Handle.writePixel (h : Handle) (order : ChannelOrder) (index : Nat) (r g b : Byte) : Handle :=
  let x := arrange order r g b
  { h with pb := ((h.pb.write (3 * index) x.1).write (3 * index + 1) x.2.1).write (3 * index + 2) x.2.2 }

/-- SET_PIXEL (R181 to R184). The index is compared before it is multiplied (R182). -/
def execSetPixel (index : U32) (r g b : Byte) (s : State) : Host.Outcome State Fault Refusal :=
  .next (s.ifIdle .pixelWriteInFlight fun h =>
    if index.toNat < h.cfg.ledCount.toNat then
      (s.setHandle (some (h.writePixel s.inst.par.channelOrder index.toNat r g b))).answer .ok
    else s.answer .indexOutOfRange)

/-- TRANSMIT (R186 to R190). -/
def execTransmit (s : State) : Host.Outcome State Fault Refusal :=
  .next (s.ifIdle .txWhileInFlight fun h =>
    let t := s.setDraws s.inst.draws.pastChanAccept
    if s.inst.chanAccept s.slot then (t.setHandle (some { h with txState := .encoding })).answer .ok
    else t.answer .channelBusy)

/-- What a STOP of an active instance does when STOP_K = k (R195). -/
def Instance.halt (i : Instance) (h : Handle) (k : Nat) : Instance :=
  { i with
    handle := some { h with fifo := [], txState := .idle }
    log := i.log ++ (h.fifo.take k).map Event.sym ++ [.halt k]
    draws := i.draws.pastStopK }

/-- STOP (R195 to R197): on an idle instance it has no effect. -/
def execStop (s : State) : Host.Outcome State Fault Refusal :=
  .next (s.ifInited fun h =>
    if h.txState = .idle then s.answer .ok
    else (s.setInst (s.inst.halt h (s.inst.stopK s.slot h))).answer .ok)

end Sys2Proof.Machine
end

