-- ==== Sys2Proof/Machine/Dispatch.lean ====
section
/-! DEFINITION. Every command's meaning, by its constructor. -/

namespace Sys2Proof.Machine

open Sys2Proof

def exec (i : Instr) (s : State) : Host.Outcome State Fault Refusal :=
  match i with
  | .init cfg => Sys2Proof.Machine.execInit cfg s
  | .deinit => Sys2Proof.Machine.execDeinit s
  | .setPixel index r g b => Sys2Proof.Machine.execSetPixel index r g b s
  | .transmit => Sys2Proof.Machine.execTransmit s
  | .stop => Sys2Proof.Machine.execStop s
  | .reset => Sys2Proof.Machine.execReset s
  | .encode cap => Sys2Proof.Machine.execEncode cap s

end Sys2Proof.Machine
end

