-- ==== Sys2Proof/Machine/Step.lean ====
section
/-! DEFINITION. One step of the system (60_exceptions.md R246) and how a program comes to be run (log 1). -/

namespace Sys2Proof.Machine

open Sys2Proof

/-- The Host issues the next command of the instance in focus (30_encoding.md R80, R81). -/
def issueNext (s : State) : Host.Outcome State Fault Refusal :=
  match s.inst.prog with
  | [] => .fault .noEnabledStep
  | p :: rest =>
    let t := s.setInst { s.inst with prog := rest }
    match decode p with
    | .command i => exec i t
    | .illegal _ => .next t.issueIllegal

/-- The chosen step of the instance in focus. -/
def runMove (m : Move) (s : State) : Host.Outcome State Fault Refusal :=
  match m with
  | .host => issueNext s
  | m => .next (s.agentStep m)

/-- One step: the choice of the schedule among the enabled steps; none enabled, the machine stops. -/
def step (s : State) : Host.Outcome State Fault Refusal :=
  match s.nextChoice with
  | none => .fault .noEnabledStep
  | some c => runMove c.move (s.turn c)

/-- `s` with an instruction given by its bits as the next command of the instance in focus, and that instance's Host
scheduled next. -/
def State.withFetchWord (s : State) (nbits w : Nat) : State :=
  { s with
    inst := { s.inst with prog := CommandWords.ofBits nbits w :: s.inst.prog }
    sched := { slot := s.slot, move := .host } :: s.sched }

end Sys2Proof.Machine
end

