-- ==== Sys2Proof/Machine/Assembler.lean ====
section
/-! DEFINITION. The assembler of 30_encoding.md R85 and R86: program text to commands. No step of the block reads it;
a text is a list of characters (log 19). -/

namespace Sys2Proof.Machine

open Sys2Proof

/-- The nine mnemonics as they are written (R85, R86). -/
def mnemonicNames : List (List Char × Mnemonic) :=
  [("INIT".toList, .init), ("DEINIT".toList, .deinit), ("SET_PIXEL".toList, .setPixel), ("TRANSMIT".toList, .transmit),
   ("STOP".toList, .stop), ("RESET".toList, .reset), ("ENCODE".toList, .encode), ("CLEAR".toList, .clear),
   ("ABORT".toList, .abort)]

/-- The text without the blanks around it. -/
def trimBlanks (cs : List Char) : List Char :=
  ((cs.dropWhile (· = ' ')).reverse.dropWhile (· = ' ')).reverse

/-- The text split at every comma. -/
def splitCommas : List Char → List (List Char)
  | [] => [[]]
  | c :: cs =>
    match splitCommas cs with
    | [] => [[c]]
    | first :: more => if c = ',' then [] :: first :: more else (c :: first) :: more

/-- A digit's value below `base`, letters counting on from ten. -/
def digitValue (base : Nat) (c : Char) : Option Nat :=
  let n := c.toNat
  let v := if 48 ≤ n ∧ n ≤ 57 then n - 48 else if 65 ≤ n ∧ n ≤ 70 then n - 55 else if 97 ≤ n ∧ n ≤ 102 then n - 87 else base
  if v < base then some v else none

/-- Digits read on from `acc`. -/
def readDigits (base : Nat) : Nat → List Char → Option Nat
  | acc, [] => some acc
  | acc, c :: cs =>
    match digitValue base c with
    | none => none
    | some v => readDigits base (base * acc + v) cs

/-- An unsigned decimal or 0x hexadecimal literal (R85). -/
def readNumber : List Char → Option Nat
  | [] => none
  | '0' :: 'x' :: c :: cs => readDigits 16 0 (c :: cs)
  | cs => readDigits 10 0 cs

/-- The operands of a line, read in order. -/
def readOperands : List (List Char) → Option (List Nat)
  | [] => some []
  | t :: ts =>
    match readNumber (trimBlanks t), readOperands ts with
    | some n, some ns => some (n :: ns)
    | _, _ => none

/-- One line of text as a `Line`; its comment begins with a semicolon (R85). -/
def parseLine (text : List Char) : Option Line :=
  let code := trimBlanks (text.takeWhile (· ≠ ';'))
  let name := code.takeWhile (· ≠ ' ')
  let rest := trimBlanks (code.drop name.length)
  match mnemonicNames.lookup name with
  | none => none
  | some m => (if rest = [] then some [] else readOperands (splitCommas rest)).map fun xs => { mnemonic := m, operands := xs }

/-- The commands of one line of text; a line with nothing but a comment has none (R85, R86). -/
def assembleText (ledCount : Nat) (text : List Char) : Option (List Instr) :=
  if trimBlanks (text.takeWhile (· ≠ ';')) = [] then some []
  else (parseLine text).bind (assemble ledCount)

end Sys2Proof.Machine
end

