-- ==== Sys2Proof/Safety.lean ====
section
/-! DEFINITION. The terms claims about the block are made in: states, the frame, the wire, the invariants of
10_state.md R29, runs, underrun and fairness. -/

namespace Sys2Proof.Machine

open Sys2Proof

/-! ## States of the instance in focus -/

/-- Initialised and not quiescent, with handle `h`. -/
abbrev State.Live (s : State) (h : Handle) : Prop := s.inst.fault = 0 ∧ s.inst.handle = some h

/-- Live with no frame in flight. -/
abbrev State.IdleAt (s : State) (h : Handle) : Prop := s.Live h ∧ h.txState = .idle

/-- Live with a frame in flight (00_scope.md R16). -/
abbrev State.InFlight (s : State) (h : Handle) : Prop := s.Live h ∧ h.txState ≠ .idle

/-- Neither initialised nor quiescent: the instance waits for INIT. -/
abbrev State.Blank (s : State) : Prop := s.inst.fault = 0 ∧ s.inst.handle = none

/-- What a command leaves that wrote the handle `h`, took its draws up to `d` and answered `r`: everything else of the
system is as it was. -/
def State.ended (s : State) (h : Option Handle) (d : Draws) (r : Reply) : State :=
  { s with inst := { s.inst with handle := h, draws := d, replies := s.inst.replies ++ [r] } }

/-- What a command leaves that raised a fault: FAULT holds `bits`, the command answered Faulted, everything else of the
system is as it was (60_exceptions.md R232). -/
def State.faultedWith (s : State) (bits : U32) : State :=
  { s with inst := { s.inst with fault := bits, replies := s.inst.replies ++ [.faulted] } }

/-- Every byte of the pixel buffer is defined. -/
abbrev Handle.Defined (h : Handle) : Prop := ∀ a < h.len, (h.pb.read a).isSome

/-- Every byte that an Encode call of capacity `cap` reads is defined: those of the next `cap` bits, as far as there are
so many (41_sub_encoders.md R120, R130). -/
abbrev Handle.DefinedWithin (h : Handle) (cap : Nat) : Prop :=
  ∀ c < h.bits, h.bitCursor ≤ c → c < h.bitCursor + cap → (h.pb.read (c / 8)).isSome

/-! ## The frame and the wire -/

/-- sym(c) (20_memory.md R64), for a bit whose byte is defined. -/
def Handle.streamSymbol (h : Handle) (c : Nat) : Symbol :=
  h.symbolFor (bitOfByte c ((h.pb.read (byteOfBit c)).getD 0))

/-- sym(c), …, sym(c + n − 1). -/
def Handle.stream (h : Handle) (c n : Nat) : List Symbol := (List.range' c n).map h.streamSymbol

/-- The whole frame: sym(0), …, sym(8·L − 1), LATCH_SYM (20_memory.md R64). -/
def Handle.frame (h : Handle) : List Symbol := h.stream 0 h.bits ++ [h.latch]

/-- What is still to be encoded of the frame the encoder is in. -/
def Handle.rest (h : Handle) : List Symbol :=
  match h.phase with
  | .sending => h.stream h.bitCursor (h.bits - h.bitCursor) ++ [h.latch]
  | .latching => [h.latch]

/-- What is still to reach the wire of the frame in flight: the queue, then what is not encoded yet. -/
def Handle.pending (h : Handle) : List Symbol :=
  match h.txState with
  | .idle => []
  | .encoding => h.fifo ++ h.rest
  | .draining => h.fifo

/-- The wire: LOG's projection onto its Sym events (10_state.md R35). -/
def wire (log : List Event) : List Symbol :=
  log.filterMap fun e => match e with
    | .sym s => some s
    | _ => none

/-- A frame's length on the wire in ticks, its Symbols following each other with no gap (40_symbols.md R109). -/
def Handle.frameTicks (h : Handle) : Nat := (h.frame.map Symbol.ticks).sum

/-- The outcomes of one Encode call that reads no undef byte, row by row as 42_composite_encoder.md R149 lists them. -/
def encodeTable (cap : Nat) (h : Handle) : Encoded :=
  let r := h.bits - h.bitCursor
  if cap = 0 then ⟨0, .inProgress, [], h⟩
  else match h.phase with
    | .latching => ⟨1, .frameComplete, [h.latch], h.rewind⟩
    | .sending =>
      if cap < r then ⟨cap, .bufferFull, h.stream h.bitCursor cap, { h with bitCursor := h.bitCursor + cap }⟩
      else if cap = r then ⟨r, .bufferFull, h.stream h.bitCursor r, { h with phase := .latching, bitCursor := h.bits }⟩
      else ⟨r + 1, .frameComplete, h.stream h.bitCursor r ++ [h.latch], h.rewind⟩

/-- The Symbols of successive Encode calls with the given capacities, if the last call and no earlier one reports
FrameComplete and none raises a fault (42_composite_encoder.md R154). -/
def encodeFrame : List Nat → Handle → Option (List Symbol)
  | [], _ => none
  | cap :: caps, h =>
    match encodeCall cap h with
    | none => none
    | some e =>
      if e.status = .frameComplete then (if caps = [] then some e.symbols else none)
      else (encodeFrame caps e.handle).map (e.symbols ++ ·)

/-! ## Invariants -/

/-- 10_state.md R29 (a) to (e), with LED_COUNT ≥ 1, which (e) rests on (43_strip_handle.md R172). -/
abbrev Handle.EncoderInv (h : Handle) : Prop :=
  h.bitCursor ≤ h.bits
  ∧ (h.phase = .latching → h.bitCursor = h.bits)
  ∧ h.latchCursor = 0
  ∧ (h.txState = .draining → h.phase = .sending ∧ h.bitCursor = 0)
  ∧ (h.phase = .sending → h.bitCursor < h.bits)
  ∧ 1 ≤ h.cfg.ledCount.toNat

/-- Neither half of the Symbol is empty (30_encoding.md R72). -/
abbrev Symbol.Lasting (s : Symbol) : Prop := s.duration0 ≠ 0 ∧ s.duration1 ≠ 0

/-- What holds of a handle between any two steps: a legal configuration (10_state.md R23) and its templates (R25),
R29, the symbol buffer's bound and contents (R34, 44_channel.md R212), and the pixel buffer in its canonical form with
no byte outside it (20_memory.md R50). -/
abbrev Handle.Inv (par : Params) (h : Handle) : Prop :=
  constructionFault par h.cfg = none
  ∧ h.bit0 = bit0Template (ticks h.cfg) ∧ h.bit1 = bit1Template (ticks h.cfg) ∧ h.latch = latchTemplate (ticks h.cfg)
  ∧ h.EncoderInv
  ∧ h.fifo.length ≤ h.cfg.symBufCap.toNat
  ∧ (h.txState = .idle → h.fifo = [])
  ∧ (∀ s ∈ h.fifo, s = h.bit0 ∨ s = h.bit1 ∨ s = h.latch)
  ∧ h.pb.fill = par.initFill ∧ h.pb.wf ∧ ∀ c ∈ h.pb.cells, c.1 < h.len

/-- What holds of an instance between any two steps: its parameters' bounds (00_scope.md R10), its handle's invariant,
FAULT bits 9 to 31 clear (60_exceptions.md R233), no empty Symbol on the wire (30_encoding.md R72). -/
abbrev Instance.Inv (i : Instance) : Prop :=
  i.par.wf ∧ (∀ h ∈ i.handle, h.Inv i.par) ∧ i.fault.toNat < 512 ∧ ∀ s ∈ wire i.log, s.Lasting

/-- What holds of the system between any two steps: NUM_CHANNELS instances (60_exceptions.md R250), so one value of it
for all of them (log 6), each with its invariant. -/
abbrev State.Inv (s : State) : Prop :=
  ∀ i ∈ s.instances, i.par.numChannels = s.instances.length ∧ i.Inv

/-! ## Runs -/

/-- The commands executed one after another by the instance in focus, where each answers a next state. -/
def runCommands : List Instr → State → Option State
  | [], s => some s
  | i :: rest, s =>
    match exec i s with
    | .next t => runCommands rest t
    | _ => none

/-- The Channel and Line steps of the instance in focus taken one after another, where each is enabled. -/
def runAgents : List Move → State → Option State
  | [], s => some s
  | m :: rest, s => if m ≠ .host ∧ s.inst.ready m = true then runAgents rest (s.agentStep m) else none

/-- What an instance holds of its own, the model's inputs (log 1, 2, 4) left out. -/
def Instance.own (i : Instance) : Params × Option Handle × U32 × List Event := (i.par, i.handle, i.fault, i.log)

/-- Two systems that differ in their inputs only: in the Hosts' programs and results, the draws, the schedule, and
which instance is in focus. -/
def State.SameBlock (s t : State) : Prop := s.instances.map Instance.own = t.instances.map Instance.own

/-- A run of the system: from each `r n` a step leads to what the block holds in `r (n + 1)`, whose inputs are given
anew, so that a run has any program, any draws and any schedule (10_state.md R36, log 1); where no step is enabled
nothing happens, so that a run that ends is one too. -/
def IsRun (r : Nat → State) : Prop :=
  ∀ n, (∃ t, step (r n) = .next t ∧ t.SameBlock (r (n + 1))) ∨
    (step (r n) = .fault .noEnabledStep ∧ (r n).SameBlock (r (n + 1)))

/-- The run takes the step `m` of instance k at time n. -/
def Takes (r : Nat → State) (n k : Nat) (m : Move) : Prop := (r n).nextChoice = some ⟨k, m⟩

/-- Instance k is live with handle h at time n. -/
def HandleAt (r : Nat → State) (n k : Nat) (h : Handle) : Prop :=
  ∃ i, (r n).instances[k]? = some i ∧ i.fault = 0 ∧ i.handle = some h

/-- The weak fairness of 70_reset_and_hazards.md R272 (a) to (c) for instance k: an enabled step (of the Channel, with
free space, one that offers a capacity) is sooner or later taken, or ceases to be enabled. The Host owes nothing (d). -/
structure WeaklyFair (r : Nat → State) (k : Nat) : Prop where
  channel : ∀ n, ∃ m, n ≤ m ∧
    ((∃ h, HandleAt r m k h ∧ h.txState = .encoding ∧ 0 < h.free) →
      Takes r m k .chanEncode ∧ ∃ h, HandleAt r m k h ∧
        1 ≤ (((r m).turn ⟨k, .chanEncode⟩).inst).chanCap k h)
  line : ∀ n, ∃ m, n ≤ m ∧
    ((∃ h, HandleAt r m k h ∧ h.txState ≠ .idle ∧ h.fifo ≠ []) → Takes r m k .lineEmit)
  completion : ∀ n, ∃ m, n ≤ m ∧
    ((∃ h, HandleAt r m k h ∧ h.txState = .draining ∧ h.fifo = []) → Takes r m k .txDone)

/-- The symbol buffer has run empty in the middle of a frame (70_reset_and_hazards.md R266). -/
def Handle.starved (h : Handle) : Bool := decide (h.txState = .encoding) && h.fifo.isEmpty

/-- NO_UNDERRUN (R266) for instance k of a run: between the first Symbol of a frame on the wire and its FrameComplete
the Line never empties the symbol buffer. A claim about the waveform needs it; no statement here does (log 18). -/
def NoUnderrun (r : Nat → State) (k : Nat) : Prop :=
  ∀ n h h', Takes r n k .lineEmit → HandleAt r n k h → HandleAt r (n + 1) k h' → h'.starved = false

/-- A bound on the agent steps, zero-capacity calls apart, that the frame in flight still takes
(42_composite_encoder.md R155, 44_channel.md R219). -/
def Handle.work (h : Handle) : Nat :=
  match h.txState with
  | .idle => 0
  | .encoding => 2 * h.rest.length + h.fifo.length + 2
  | .draining => h.fifo.length + 1

end Sys2Proof.Machine
end

