-- ==== Sys2Proof/Certificates/Slice0/Obligations.lean ====
section
/-! DEFINITION. What is claimed of the encoder block, for the provers. -/

open Sys2Proof Sys2Proof.Machine

/-! ## Encodings (30_encoding.md) -/

/-- The decoder reads back every command from its words, every operand at every value. -/
def Obligations.DecodeOfEncodeIsTheCommand : Prop :=
  ∀ i : Instr, decode (encode i) = .command i

/-- A word spells one command only: encoding what was decoded gives the word again, and INIT's block with it. -/
def Obligations.EncodeOfDecodeIsTheWord : Prop :=
  ∀ (p : CommandWords) (i : Instr), decode p = .command i →
    (encode i).word = p.word ∧ (i.opcode = .init → (encode i).block = p.block)

/-- R80 on every word, the fields given by the arithmetic of R73 to R78. -/
def Obligations.DecoderFollowsTheOpcodeMap : Prop :=
  ∀ p : CommandWords,
    (p.word.toNat / 2 ^ 56 = 0 ∨ 8 ≤ p.word.toNat / 2 ^ 56 → decode p = .illegal .reservedOpcode) ∧
    (p.word.toNat / 2 ^ 56 = 1 →
      decode p = if p.word.toNat % 2 ^ 56 = 0 then .command (.init p.block) else .illegal .reservedBits) ∧
    (p.word.toNat / 2 ^ 56 = 2 →
      decode p = if p.word.toNat % 2 ^ 56 = 0 then .command .deinit else .illegal .reservedBits) ∧
    (p.word.toNat / 2 ^ 56 = 3 →
      decode p = .command (.setPixel (BitVec.ofNat 32 (p.word.toNat / 2 ^ 24)) (BitVec.ofNat 8 (p.word.toNat / 2 ^ 16))
        (BitVec.ofNat 8 (p.word.toNat / 2 ^ 8)) (BitVec.ofNat 8 p.word.toNat))) ∧
    (p.word.toNat / 2 ^ 56 = 4 →
      decode p = if p.word.toNat % 2 ^ 56 = 0 then .command .transmit else .illegal .reservedBits) ∧
    (p.word.toNat / 2 ^ 56 = 5 →
      decode p = if p.word.toNat % 2 ^ 56 = 0 then .command .stop else .illegal .reservedBits) ∧
    (p.word.toNat / 2 ^ 56 = 6 →
      decode p = if p.word.toNat % 2 ^ 56 = 0 then .command .reset else .illegal .reservedBits) ∧
    (p.word.toNat / 2 ^ 56 = 7 →
      decode p = if p.word.toNat % 2 ^ 56 < 2 ^ 32 then .command (.encode (BitVec.ofNat 32 p.word.toNat))
        else .illegal .reservedBits)

/-- The encoding examples of R87, both ways, and its Illegal word. -/
def Obligations.EncodingExamplesOfTheSpec : Prop :=
  (∀ cfg, encode (.init cfg) = ⟨0x0100000000000000, cfg⟩) ∧
  (encode .deinit).word = 0x0200000000000000 ∧
  (encode (.setPixel 0 0xFF 0x00 0x00)).word = 0x0300000000FF0000 ∧
  (encode (.setPixel 1 0x12 0x34 0x56)).word = 0x0300000001123456 ∧
  (encode .transmit).word = 0x0400000000000000 ∧
  (encode .stop).word = 0x0500000000000000 ∧
  (encode .reset).word = 0x0600000000000000 ∧
  (encode (.encode 4)).word = 0x0700000000000004 ∧
  (encode (.encode 0)).word = 0x0700000000000000 ∧
  (∀ cfg, decode ⟨0x0100000000000000, cfg⟩ = .command (.init cfg)) ∧
  (∀ blk, decode ⟨0x0200000000000000, blk⟩ = .command .deinit) ∧
  (∀ blk, decode ⟨0x0300000000FF0000, blk⟩ = .command (.setPixel 0 0xFF 0x00 0x00)) ∧
  (∀ blk, decode ⟨0x0300000001123456, blk⟩ = .command (.setPixel 1 0x12 0x34 0x56)) ∧
  (∀ blk, decode ⟨0x0400000000000000, blk⟩ = .command .transmit) ∧
  (∀ blk, decode ⟨0x0500000000000000, blk⟩ = .command .stop) ∧
  (∀ blk, decode ⟨0x0600000000000000, blk⟩ = .command .reset) ∧
  (∀ blk, decode ⟨0x0700000000000004, blk⟩ = .command (.encode 4)) ∧
  (∀ blk, decode ⟨0x0700000000000000, blk⟩ = .command (.encode 0)) ∧
  (∀ blk, decode ⟨0x0400000000000001, blk⟩ = .illegal .reservedBits)

/-- R70: where the four fields stand in a Symbol word, and its example. -/
def Obligations.SymbolWordPlacesItsFields : Prop :=
  (∀ s : Symbol, s.word.toNat =
    s.duration0.toNat + s.level0.toNat * 2 ^ 15 + s.duration1.toNat * 2 ^ 16 + s.level1.toNat * 2 ^ 31) ∧
  (Symbol.mk true 3 false 9).word = 0x00098003

/-- R71: every word is a Symbol, and none is two. -/
def Obligations.EveryWordIsOneSymbol : Prop :=
  (∀ w : U32, (Symbol.ofWord w).duration0.toNat = w.toNat % 2 ^ 15 ∧
    (Symbol.ofWord w).level0.toNat = w.toNat / 2 ^ 15 % 2 ∧
    (Symbol.ofWord w).duration1.toNat = w.toNat / 2 ^ 16 % 2 ^ 15 ∧
    (Symbol.ofWord w).level1.toNat = w.toNat / 2 ^ 31 ∧
    (Symbol.ofWord w).word = w) ∧
  ∀ s : Symbol, Symbol.ofWord s.word = s

/-- The result codes of R83 and the ENCODE result word of R84: RES and the 22 bits below it are zero, STATUS stands
above COUNT. -/
def Obligations.ResultCodesAndEncodeResultWord : Prop :=
  Reply.ok.res = 0x00 ∧ (∀ n st syms, (Reply.encoded n st syms).res = 0x00) ∧ Reply.indexOutOfRange.res = 0x01 ∧
  Reply.channelBusy.res = 0x02 ∧ (∀ c, (Reply.constructionError c).res = 0x03) ∧ Reply.faulted.res = 0xFF ∧
  (Reply.constructionError .timing).cause = some 1 ∧ (Reply.constructionError .config).cause = some 2 ∧
  (Reply.constructionError .alloc).cause = some 3 ∧
  ∀ count < 2 ^ 32,
    (encodeResultWord count .inProgress).toNat = count ∧
    (encodeResultWord count .bufferFull).toNat = 2 ^ 32 + count ∧
    (encodeResultWord count .frameComplete).toNat = 2 * 2 ^ 32 + count

/-- R85, R86: the nine mnemonics, how many operands each takes and what fits them; what is anything else is an assembly
error. Each of R85's seven assembles to its own command with its operands in their places; ABORT is STOP then RESET, and
CLEAR sets the pixels in order to black. -/
def Obligations.AssemblerRefusesWhatDoesNotFit : Prop :=
  (∀ leds m xs, (assemble leds ⟨m, xs⟩).isSome = true ↔
    match m with
    | .init => xs.length = 9 ∧ ∀ x ∈ xs, x < 2 ^ 32
    | .setPixel => ∃ index r g b, xs = [index, r, g, b] ∧ index < 2 ^ 32 ∧ r < 2 ^ 8 ∧ g < 2 ^ 8 ∧ b < 2 ^ 8
    | .encode => ∃ cap, xs = [cap] ∧ cap < 2 ^ 32
    | .deinit => xs = []
    | .transmit => xs = []
    | .stop => xs = []
    | .reset => xs = []
    | .clear => xs = []
    | .abort => xs = []) ∧
  (∀ leds (cfg : ConfigBlock), assemble leds
    ⟨.init, [cfg.signalPin.toNat, cfg.ledCount.toNat, cfg.tickResHz.toNat, cfg.bit0HighNs.toNat, cfg.bit0LowNs.toNat,
      cfg.bit1HighNs.toNat, cfg.bit1LowNs.toNat, cfg.latchLowNs.toNat, cfg.symBufCap.toNat]⟩ = some [.init cfg]) ∧
  (∀ leds, assemble leds ⟨.deinit, []⟩ = some [.deinit]) ∧
  (∀ leds (index : U32) (r g b : Byte),
    assemble leds ⟨.setPixel, [index.toNat, r.toNat, g.toNat, b.toNat]⟩ = some [.setPixel index r g b]) ∧
  (∀ leds, assemble leds ⟨.transmit, []⟩ = some [.transmit]) ∧
  (∀ leds, assemble leds ⟨.stop, []⟩ = some [.stop]) ∧
  (∀ leds, assemble leds ⟨.reset, []⟩ = some [.reset]) ∧
  (∀ leds (cap : U32), assemble leds ⟨.encode, [cap.toNat]⟩ = some [.encode cap]) ∧
  (∀ leds, assemble leds ⟨.abort, []⟩ = some [.stop, .reset]) ∧
  ∀ leds, ∃ is, assemble leds ⟨.clear, []⟩ = some is ∧ is.length = leds ∧
    ∀ k < leds, is[k]? = some (.setPixel (BitVec.ofNat 32 k) 0 0 0)

/-! ## A step of the system -/

/-- A step that takes a Host's turn runs the command its next words decode to: it is exec of that command on the system
with the instance in focus, the words gone from its program and the schedule moved on. Program and schedule are the
model's (log 1, 3). -/
def Obligations.StepRunsTheDecodedCommand : Prop :=
  ∀ (s : State) (k : Nat) (i : Instance) (p : CommandWords) (rest : List CommandWords) (c : Instr),
    s.nextChoice = some ⟨k, .host⟩ → s.instances[k]? = some i → i.prog = p :: rest → decode p = .command c →
    step s = exec c
      { before := s.instances.take k, inst := { i with prog := rest }, after := s.instances.drop (k + 1),
        sched := s.schedule.tail, turns := s.turns + 1 }

/-- A step that takes another agent's turn is that agent's step on the system with the instance in focus. The schedule
is the model's (log 3). -/
def Obligations.StepRunsTheChosenAgentStep : Prop :=
  ∀ (s : State) (k : Nat) (i : Instance) (m : Move),
    s.nextChoice = some ⟨k, m⟩ → m ≠ .host → s.instances[k]? = some i →
    step s = .next (State.agentStep
      { before := s.instances.take k, inst := i, after := s.instances.drop (k + 1),
        sched := s.schedule.tail, turns := s.turns + 1 } m)

/-- An instruction placed by withFetchWord is the one the very next step runs, on the same system (log 1). -/
def Obligations.StepRunsThePlacedWord : Prop :=
  ∀ (s : State) (nbits w : Nat) (c : Instr), decodeTableWord nbits w = some c →
    step (s.withFetchWord nbits w) = exec c { s with turns := s.turns + 1 }

/-- R81: a word that spells no command sets FAULT bit 0 of an instance that is not quiescent, in whatever state it is
else, and has no other effect; a quiescent instance answers Faulted to it and gains no bit (R232, effect 4; that this
test stands before the decoder's verdict is DEDUCED, log 14). -/
def Obligations.IllegalWordFaults : Prop :=
  ∀ (s : State) (k : Nat) (i : Instance) (p : CommandWords) (rest : List CommandWords) (why : Illegal),
    s.nextChoice = some ⟨k, .host⟩ → s.instances[k]? = some i → i.prog = p :: rest → decode p = .illegal why →
    let leaving (fault : U32) : State :=
      { before := s.instances.take k,
        inst := { i with prog := rest, fault := fault, replies := i.replies ++ [.faulted] },
        after := s.instances.drop (k + 1), sched := s.schedule.tail, turns := s.turns + 1 }
    (i.fault = 0 → step s = .next (leaving 1)) ∧ (i.fault ≠ 0 → step s = .next (leaving i.fault))

/-- R246: a step takes an enabled step of some agent of some instance, any enabled step may be the one taken, and only
where none is enabled the machine stops. The schedule and the stop are the model's (log 3, 10). -/
def Obligations.StepTakesAnyEnabledStep : Prop :=
  (∀ (s : State) (c : Choice), s.nextChoice = some c →
    ∃ i, s.instances[c.slot]? = some i ∧ i.ready c.move = true) ∧
  (∀ (s : State) (c : Choice) (i : Instance), s.instances[c.slot]? = some i → i.ready c.move = true →
    ({ s with sched := [c] } : State).nextChoice = some c) ∧
  ∀ s : State, (∃ t, step s = .next t) ∨
    (step s = .fault .noEnabledStep ∧ ∀ i ∈ s.instances, ∀ m, i.ready m = false)

/-- R210, R214, R217, R232, R236: when each agent has an enabled step on an instance. The Host's part is the model's
(log 1): it may issue while its program holds a command. -/
def Obligations.AgentsAreEnabledAsStated : Prop :=
  ∀ i : Instance,
    (i.ready .host = true ↔ i.prog ≠ []) ∧
    (i.ready .chanEncode = true ↔ i.fault = 0 ∧ ∃ h, i.handle = some h ∧ h.txState = .encoding) ∧
    (i.ready .lineEmit = true ↔ i.fault = 0 ∧ ∃ h, i.handle = some h ∧ h.txState ≠ .idle ∧ h.fifo ≠ []) ∧
    (i.ready .txDone = true ↔ i.fault = 0 ∧ ∃ h, i.handle = some h ∧ h.txState = .draining ∧ h.fifo = [])

/-- No command is without an effect the spec gives it: every one answers a next state, in every state. -/
def Obligations.EveryCommandHasANextState : Prop :=
  ∀ (c : Instr) (s : State), ∃ t, exec c s = .next t

/-! ## Faults (60_exceptions.md) -/

/-- R232, effect 4: a quiescent instance answers Faulted to every command, and nothing else changes; its Channel and
its Line have no enabled step. -/
def Obligations.QuiescentInstanceOnlyAnswersFaulted : Prop :=
  ∀ (c : Instr) (s : State), s.inst.fault ≠ 0 →
    exec c s = .next (s.ended s.inst.handle s.inst.draws .faulted) ∧
    ∀ m, m ≠ .host → s.inst.ready m = false

/-- R236: before INIT every other command sets FAULT bit 1 and has no other effect, and no agent step is enabled. -/
def Obligations.CommandBeforeInitFaults : Prop :=
  (∀ (c : Instr) (s : State), s.Blank → (∀ cfg, c ≠ .init cfg) → exec c s = .next (s.faultedWith 0x2)) ∧
  ∀ i : Instance, i.handle = none → ∀ m, m ≠ .host → i.ready m = false

/-- R171: a second INIT sets FAULT bit 2 and changes nothing else, whatever its configuration. -/
def Obligations.SecondInitFaults : Prop :=
  ∀ (s : State) (h : Handle) (cfg : ConfigBlock), s.Live h → exec (.init cfg) s = .next (s.faultedWith 0x4)

/-- R183, R189 and the in-flight checks of DEINIT, RESET and ENCODE: each sets its own FAULT bit and changes nothing
else; a SET_PIXEL out of range faults too. -/
def Obligations.CommandInFlightFaults : Prop :=
  ∀ (s : State) (h : Handle), s.InFlight h →
    (∀ index r g b, exec (.setPixel index r g b) s = .next (s.faultedWith 0x8)) ∧
    exec .transmit s = .next (s.faultedWith 0x10) ∧
    exec .deinit s = .next (s.faultedWith 0x20) ∧
    exec .reset s = .next (s.faultedWith 0x40) ∧
    ∀ cap, exec (.encode cap) s = .next (s.faultedWith 0x80)

/-- R147 for a Host ENCODE: a bit to be encoded lies in an undef byte, so FAULT bit 8 is set and nothing else changes. -/
def Obligations.HostEncodeOfUndefRollsBack : Prop :=
  ∀ (s : State) (h : Handle) (cap : U32) (c : Nat), s.IdleAt h → h.phase = .sending → h.bitCursor ≤ c →
    c < h.bitCursor + cap.toNat → c < h.bits → h.pb.read (c / 8) = none →
    exec (.encode cap) s = .next (s.faultedWith 0x100)

/-- R147, R211 for CHAN_ENCODE: FAULT bit 8 is set and nothing of the block changes besides; the model's own record of
the draw taken does (log 16). -/
def Obligations.ChannelEncodeOfUndefRollsBack : Prop :=
  ∀ (s : State) (h : Handle) (c : Nat), s.Live h → h.txState = .encoding → h.phase = .sending → h.bitCursor ≤ c →
    c < h.bitCursor + s.inst.chanCap s.slot h → c < h.bits → h.pb.read (c / 8) = none →
    s.agentStep .chanEncode
      = { s with inst := { s.inst with fault := 0x100, draws := s.inst.draws.pastChanCap } }

/-- R32: no step of the system clears a bit of any instance's FAULT. -/
def Obligations.FaultBitsAreSticky : Prop :=
  ∀ (s t : State) (k : Nat) (i j : Instance), step s = .next t → s.instances[k]? = some i → t.instances[k]? = some j →
    i.fault &&& j.fault = i.fault

/-! ## Construction (40_symbols.md) and INIT -/

/-- R102: t(n) is the exact quotient truncated, its corner cases and its examples. Of the bound below 2^32 that R102 puts
on the result nothing is said: V-TICK-12 of 95_test_vectors.md exceeds it (log 20). -/
def Obligations.TicksAreTruncated : Prop :=
  (∀ hz ns : U32, ticksOf hz ns * 1000000000 ≤ ns.toNat * hz.toNat ∧
    ns.toNat * hz.toNat < (ticksOf hz ns + 1) * 1000000000 ∧ ns.toNat * hz.toNat < 2 ^ 64 ∧
    (ns.toNat * hz.toNat < 1000000000 → ticksOf hz ns = 0)) ∧
  ticksOf 10000000 300 = 3 ∧ ticksOf 10000000 900 = 9 ∧ ticksOf 10000000 25000 = 250 ∧ ticksOf 10000000 99 = 0

/-- R110: the templates of the scenario's configuration, as words. -/
def Obligations.TemplatesOfTheScenario : Prop :=
  ∀ pin leds cap : U32,
    let t := ticks ⟨pin, leds, 10000000, 300, 900, 900, 300, 25000, cap⟩
    bit0Template t = ⟨true, 3, false, 9⟩ ∧ bit1Template t = ⟨true, 9, false, 3⟩ ∧
    latchTemplate t = ⟨false, 250, false, 250⟩ ∧
    (bit0Template t).word = 0x00098003 ∧ (bit1Template t).word = 0x00038009 ∧ (latchTemplate t).word = 0x00FA00FA

/-- R174: INIT of a legal configuration that is allocated writes all of a fresh handle in one step: the registers, the
three templates, a buffer filled as INIT_FILL says, the encoder at (Sending, 0, 0), Idle, an empty FIFO. The draw taken
is the model's own record (log 4). -/
def Obligations.InitCreatesAFreshHandle : Prop :=
  ∀ (s : State) (cfg : ConfigBlock), s.Blank → constructionFault s.inst.par cfg = none → s.channelsFull = false →
    s.inst.allocOk s.slot = true →
    ∃ h, exec (.init cfg) s = .next (s.ended (some h) s.inst.draws.pastAllocOk .ok) ∧ h.cfg = cfg ∧
      h.bit0.level0 = true ∧ h.bit0.duration0.toNat = ticksOf cfg.tickResHz cfg.bit0HighNs ∧
      h.bit0.level1 = false ∧ h.bit0.duration1.toNat = ticksOf cfg.tickResHz cfg.bit0LowNs ∧
      h.bit1.level0 = true ∧ h.bit1.duration0.toNat = ticksOf cfg.tickResHz cfg.bit1HighNs ∧
      h.bit1.level1 = false ∧ h.bit1.duration1.toNat = ticksOf cfg.tickResHz cfg.bit1LowNs ∧
      h.latch.level0 = false ∧ h.latch.duration0.toNat = ticksOf cfg.tickResHz cfg.latchLowNs ∧
      h.latch.level1 = false ∧ h.latch.duration1.toNat = ticksOf cfg.tickResHz cfg.latchLowNs ∧
      (∀ a, h.pb.read a = match s.inst.par.initFill with
        | .undef => none
        | .zero => some 0) ∧
      h.phase = .sending ∧ h.bitCursor = 0 ∧ h.latchCursor = 0 ∧ h.txState = .idle ∧ h.fifo = []

/-- R172, R173: the first check that fails decides the sub-cause, and a failed INIT writes nothing. The draw taken
is the model's own record (log 4, 15, 16). -/
def Obligations.InitFailsAtItsFirstFailedCheck : Prop :=
  ∀ (s : State) (cfg : ConfigBlock), s.Blank →
    let fails (c : Cause) (d : Draws) : Prop :=
      exec (.init cfg) s = .next (s.ended none d (.constructionError c))
    let pinOk := cfg.signalPin ∉ s.inst.par.invalidPins
    let ledsOk := 1 ≤ cfg.ledCount.toNat ∧ cfg.ledCount.toNat ≤ s.inst.par.maxLedCount
    let capOk := 1 ≤ cfg.symBufCap.toNat
    let t := ticks cfg
    let inRange (n : Nat) : Prop := 1 ≤ n ∧ n ≤ 32767
    let timesOk := inRange t.t0h ∧ inRange t.t0l ∧ inRange t.t1h ∧ inRange t.t1l ∧ inRange t.tl ∧ t.t0h < t.t1h
    let roomLeft := (s.instances.filter Instance.inited).length < s.inst.par.numChannels
    (¬pinOk → fails .config s.inst.draws) ∧
    (pinOk → ¬ledsOk → fails .config s.inst.draws) ∧
    (pinOk → ledsOk → ¬capOk → fails .config s.inst.draws) ∧
    (pinOk → ledsOk → capOk → ¬timesOk → fails .timing s.inst.draws) ∧
    (pinOk → ledsOk → capOk → timesOk → ¬roomLeft → fails .alloc s.inst.draws) ∧
    (pinOk → ledsOk → capOk → timesOk → roomLeft → s.inst.allocOk s.slot = false →
      fails .alloc s.inst.draws.pastAllocOk) ∧
    (pinOk → ledsOk → capOk → timesOk → roomLeft → s.inst.allocOk s.slot = true →
      ∃ h, exec (.init cfg) s = .next (s.ended (some h) s.inst.draws.pastAllocOk .ok))

/-! ## The Strip Handle's commands (43_strip_handle.md) -/

/-- R178: DEINIT of an idle instance takes everything away but FAULT and LOG; one before INIT or in flight faults. -/
def Obligations.DeinitReleasesTheHandle : Prop :=
  ∀ s : State,
    (s.Blank → exec .deinit s = .next (s.faultedWith 0x2)) ∧
    (∀ h, s.InFlight h → exec .deinit s = .next (s.faultedWith 0x20)) ∧
    (∀ h, s.IdleAt h → exec .deinit s = .next (s.ended none s.inst.draws .ok))

/-- R181 with R53: SET_PIXEL in range writes the three bytes of its pixel in CHANNEL_ORDER and answers Ok; every other
byte, and everything else of the system, is as it was. `wf` is the buffer's canonical form, an invariant of the model. -/
def Obligations.SetPixelWritesItsThreeBytes : Prop :=
  ∀ (s : State) (h : Handle) (index : U32) (r g b : Byte), s.IdleAt h → h.pb.wf →
    index.toNat < h.cfg.ledCount.toNat →
    ∃ pb, exec (.setPixel index r g b) s = .next (s.ended (some { h with pb := pb }) s.inst.draws .ok) ∧
      [pb.read (3 * index.toNat), pb.read (3 * index.toNat + 1), pb.read (3 * index.toNat + 2)]
        = (match s.inst.par.channelOrder with
          | .rgb => [some r, some g, some b]
          | .rbg => [some r, some b, some g]
          | .grb => [some g, some r, some b]
          | .gbr => [some g, some b, some r]
          | .brg => [some b, some r, some g]
          | .bgr => [some b, some g, some r]) ∧
      ∀ a, a < 3 * index.toNat ∨ 3 * index.toNat + 3 ≤ a → pb.read a = h.pb.read a

/-- R182: a pixel at or above LED_COUNT is refused and nothing changes. -/
def Obligations.SetPixelOutOfRangeChangesNothing : Prop :=
  ∀ (s : State) (h : Handle) (index : U32) (r g b : Byte), s.IdleAt h → h.cfg.ledCount.toNat ≤ index.toNat →
    exec (.setPixel index r g b) s = .next (s.ended (some h) s.inst.draws .indexOutOfRange)

/-- R86, R264: CLEAR leaves every byte of the pixel buffer defined, and black. -/
def Obligations.ClearDefinesEveryByte : Prop :=
  ∀ (s : State) (h : Handle), s.IdleAt h → h.pb.wf →
    ∃ t h', runCommands (clearCommands h.cfg.ledCount.toNat) s = some t ∧ t.IdleAt h' ∧ h'.cfg = h.cfg ∧
      ∀ a < h.len, h'.pb.read a = some 0

/-- R186, R187, R188: TRANSMIT from an idle instance is accepted, and only TX_STATE changes, or the channel is busy,
and nothing changes. The draw taken is the model's own record (log 4, 16). -/
def Obligations.TransmitIsAcceptedOrBusy : Prop :=
  ∀ s : State,
    (s.Blank → exec .transmit s = .next (s.faultedWith 0x2)) ∧
    (∀ h, s.InFlight h → exec .transmit s = .next (s.faultedWith 0x10)) ∧
    (∀ h, s.IdleAt h → s.inst.chanAccept s.slot = true →
      exec .transmit s = .next (s.ended (some { h with txState := .encoding }) s.inst.draws.pastChanAccept .ok)) ∧
    (∀ h, s.IdleAt h → s.inst.chanAccept s.slot = false →
      exec .transmit s = .next (s.ended (some h) s.inst.draws.pastChanAccept .channelBusy))

/-- R195: STOP of an active instance puts a drawn prefix of the FIFO on the wire, logs Halt, empties the FIFO and makes
the instance idle; the encoder and the buffer stay; on an idle instance it has no effect; before INIT it faults.
How the draw is taken from a list is the model's (log 4, 5). -/
def Obligations.StopHaltsTheChannel : Prop :=
  ∀ s : State,
    (s.Blank → exec .stop s = .next (s.faultedWith 0x2)) ∧
    (∀ h, s.IdleAt h → exec .stop s = .next (s.ended (some h) s.inst.draws .ok)) ∧
    (∀ h, s.InFlight h → ∃ k ≤ h.fifo.length,
      k = s.inst.stopK s.slot h ∧
      exec .stop s = .next { s with inst := { s.inst with
        handle := some { h with fifo := [], txState := .idle }
        log := s.inst.log ++ (h.fifo.take k).map .sym ++ [.halt k]
        draws := s.inst.draws.pastStopK
        replies := s.inst.replies ++ [.ok] } })

/-- R151: a frame stopped without RESET is resumed where it stood: after STOP and an accepted TRANSMIT the encoder
registers are those the STOP found. -/
def Obligations.TransmitAfterStopResumesTheStaleFrame : Prop :=
  ∀ (s t u : State) (h : Handle), s.InFlight h → exec .stop s = .next t → t.inst.chanAccept t.slot = true →
    exec .transmit t = .next u →
    u.inst.handle = some { h with fifo := [], txState := .encoding } ∧ u.inst.fault = 0

/-- R196: ABORT leaves the instance idle at (Sending, 0, 0), with no fault, whatever it was doing. -/
def Obligations.AbortLeavesACleanEncoder : Prop :=
  ∀ (s : State) (h : Handle), s.InFlight h →
    ∃ t, runCommands abortCommands s = some t ∧ t.inst.fault = 0 ∧
      t.inst.handle = some { h with fifo := [], txState := .idle, phase := .sending, bitCursor := 0, latchCursor := 0 }

/-! ## The sub-encoders (41_sub_encoders.md) and the composite encoder (42_composite_encoder.md) -/

/-- R121 to R125: what a BitEncode call that raises no fault emits, how far the cursor moves, what it reports; nothing
but BIT_CURSOR changes. `bitCursor ≤ bits` is 10_state.md R29 (a). -/
def Obligations.BitEncodeContract : Prop :=
  ∀ (cap : Nat) (h : Handle) (b : SubResult), h.bitCursor ≤ h.bits → bitEncode cap h = some b →
    b.count = min cap (h.bits - h.bitCursor) ∧ b.symbols.length = b.count ∧
    b.handle = { h with bitCursor := h.bitCursor + b.count } ∧
    (cap = 0 → b.done = false) ∧
    (1 ≤ cap → (b.done = true ↔ b.handle.bitCursor = h.bits)) ∧
    ∀ j < b.count, ∃ byte, h.pb.read ((h.bitCursor + j) / 8) = some byte ∧
      b.symbols[j]? = some (if byte.getLsbD (7 - (h.bitCursor + j) % 8) then h.bit1 else h.bit0)

/-- R127 to R129: LatchEncode emits the latch Symbol once; completion is tested before the capacity. -/
def Obligations.LatchEncodeContract : Prop :=
  ∀ (cap : Nat) (h : Handle),
    (h.latchCursor = 1 → latchEncode cap h = ⟨0, true, [], h⟩) ∧
    (h.latchCursor = 0 → cap = 0 → latchEncode cap h = ⟨0, false, [], h⟩) ∧
    (h.latchCursor = 0 → 1 ≤ cap → latchEncode cap h = ⟨1, true, [h.latch], { h with latchCursor := 1 }⟩)

/-- R144: an Encode call of capacity zero emits nothing, reports InProgress and changes no state, in every phase. -/
def Obligations.ZeroCapacityEncodeChangesNothing : Prop :=
  (∀ h : Handle, encodeCall 0 h = some ⟨0, .inProgress, [], h⟩) ∧
  ∀ (s : State) (h : Handle), s.IdleAt h →
    exec (.encode 0) s = .next (s.ended (some h) s.inst.draws (.encoded 0 .inProgress []))

/-- R149: the table of all outcomes of one Encode call, wherever the bytes this call reads are defined; what the others
hold does not matter. -/
def Obligations.EncodeCallFollowsTheTable : Prop :=
  ∀ (cap : Nat) (h : Handle), h.EncoderInv → h.DefinedWithin cap → encodeCall cap h = some (encodeTable cap h)

/-- R148 with R149: a Host ENCODE on an idle instance returns the table's outcome to the Host and writes PHASE and the
cursors only; FIFO, LOG and the rest stay. The bytes the call reads are defined; what the others hold does not matter. -/
def Obligations.HostEncodeReturnsTheTableOutcome : Prop :=
  ∀ (s : State) (h : Handle) (cap : U32), s.IdleAt h → h.EncoderInv → h.DefinedWithin cap.toNat →
    let e := encodeTable cap.toNat h
    exec (.encode cap) s
      = .next (s.ended (some e.handle) s.inst.draws (.encoded e.count e.status e.symbols)) ∧
    e.symbols.length = e.count ∧ e.count ≤ cap.toNat ∧
    e.handle = { h with phase := e.handle.phase, bitCursor := e.handle.bitCursor, latchCursor := 0 }

/-- R155, R274: a call of nonzero capacity that raises no fault emits at least one Symbol and never more than its
capacity or the frame's length. -/
def Obligations.EveryEncodeCallMakesProgress : Prop :=
  ∀ (cap : Nat) (h : Handle) (e : Encoded), h.EncoderInv → h.txState ≠ .draining → encodeCall cap h = some e → 1 ≤ cap →
    1 ≤ e.count ∧ e.count ≤ min cap (h.bits + 1) ∧ e.symbols.length = e.count ∧ e.handle.EncoderInv

/-- R150: RESET of an idle instance rewinds the encoder and touches nothing else; before INIT or in flight it faults. -/
def Obligations.ResetRewindsTheEncoder : Prop :=
  ∀ s : State,
    (s.Blank → exec .reset s = .next (s.faultedWith 0x2)) ∧
    (∀ h, s.InFlight h → exec .reset s = .next (s.faultedWith 0x40)) ∧
    (∀ h, s.IdleAt h → exec .reset s
      = .next (s.ended (some { h with phase := .sending, bitCursor := 0, latchCursor := 0 }) s.inst.draws .ok))

/-- R154: however the capacities partition a frame, the calls until FrameComplete emit exactly the frame, 8·L + 1
Symbols with the latch last; and capacities that add up to so many do complete it. -/
def Obligations.ChunkingDoesNotChangeTheFrame : Prop :=
  ∀ h : Handle, h.EncoderInv → h.Defined → h.phase = .sending → h.bitCursor = 0 →
    (∀ (caps : List Nat) (syms : List Symbol), encodeFrame caps h = some syms →
      syms = h.frame ∧ syms.length = 8 * (3 * h.cfg.ledCount.toNat) + 1 ∧ syms.getLast? = some h.latch) ∧
    ∀ caps : List Nat, h.bits + 1 ≤ caps.sum → ∃ n, encodeFrame (caps.take n) h = some h.frame

/-- R156: RESET of an idle instance, wherever its encoder stands, then a complete encoding of its buffer emits the same
Symbols as any complete encoding of the same buffer from (Sending, 0, 0) did before. `h₀` is the handle of that earlier
encoding: the same configuration, templates and buffer. -/
def Obligations.ResetAndEncodeAgainRepeatsTheFrame : Prop :=
  ∀ (s : State) (h h₀ : Handle) (caps₀ : List Nat) (syms₀ : List Symbol),
    s.IdleAt h → h.EncoderInv → h.Defined → h₀.EncoderInv → h₀.phase = .sending → h₀.bitCursor = 0 →
    h₀.cfg = h.cfg → h₀.bit0 = h.bit0 → h₀.bit1 = h.bit1 → h₀.latch = h.latch → h₀.pb = h.pb →
    encodeFrame caps₀ h₀ = some syms₀ →
    ∃ t h', exec .reset s = .next t ∧ t.IdleAt h' ∧
      (∀ caps syms, encodeFrame caps h' = some syms → syms = syms₀) ∧
      ∀ caps : List Nat, h'.bits + 1 ≤ caps.sum → ∃ n, encodeFrame (caps.take n) h' = some syms₀

/-! ## The Channel and the Line (44_channel.md) -/

/-- R211, R210: CHAN_ENCODE with its drawn capacity, which never exceeds the free space, where the bytes it reads are
defined: the table's Symbols go to the tail of the FIFO, the encoder moves on, FrameComplete makes the instance
Draining; nothing else changes. How the draw is taken from a list is the model's (log 4, 5). -/
def Obligations.ChannelEncodeFillsTheFifo : Prop :=
  ∀ (s : State) (h : Handle), s.Live h → h.txState = .encoding → h.EncoderInv →
    h.DefinedWithin (s.inst.chanCap s.slot h) →
    let cap := s.inst.chanCap s.slot h
    let e := encodeTable cap h
    cap ≤ h.cfg.symBufCap.toNat - h.fifo.length ∧
    s.agentStep .chanEncode = { s with inst := { s.inst with
      handle := some { h with
        phase := e.handle.phase
        bitCursor := e.handle.bitCursor
        latchCursor := 0
        fifo := h.fifo ++ e.symbols
        txState := if e.status = .frameComplete then .draining else .encoding }
      draws := s.inst.draws.pastChanCap } }

/-- R214: LINE_EMIT puts the oldest queued Symbol on the wire. -/
def Obligations.LineEmitsTheOldestSymbol : Prop :=
  ∀ (s : State) (h : Handle) (sym : Symbol) (rest : List Symbol), s.InFlight h → h.fifo = sym :: rest →
    s.agentStep .lineEmit = { s with inst := { s.inst with
      handle := some { h with fifo := rest }, log := s.inst.log ++ [.sym sym] } }

/-- R217: TX_DONE makes the instance idle and delivers the notification. -/
def Obligations.TxDoneDeliversTheNotification : Prop :=
  ∀ (s : State) (h : Handle), s.Live h → h.txState = .draining → h.fifo = [] →
    s.agentStep .txDone = { s with inst := { s.inst with
      handle := some { h with txState := .idle }, log := s.inst.log ++ [.done] } }

/-- R218: from an accepted TRANSMIT that found (Sending, 0, 0) and a defined buffer, whatever the schedule and the
capacities drawn, the instance is idle again only once LOG has gained exactly the frame and then Done. -/
def Obligations.FrameOnTheWire : Prop :=
  ∀ (s t : State) (h h' : Handle) (ms : List Move), s.Live h → h.EncoderInv → h.Defined → h.txState = .encoding →
    h.phase = .sending → h.bitCursor = 0 → h.fifo = [] →
    runAgents ms s = some t → t.inst.handle = some h' → h'.txState = .idle →
    t.inst.log = s.inst.log ++ h.frame.map .sym ++ [.done] ∧ t.inst.fault = 0

/-- The wire so far, the queue and what is still to be encoded always make up the same frame: an agent step that raises
no fault moves Symbols along it and loses, adds and reorders none (20_memory.md R64, R65). -/
def Obligations.AgentStepsConserveTheFrame : Prop :=
  ∀ (s : State) (h h' : Handle) (m : Move), s.InFlight h → h.EncoderInv → s.inst.ready m = true → m ≠ .host →
    (s.agentStep m).inst.fault = 0 → (s.agentStep m).inst.handle = some h' →
    wire (s.agentStep m).inst.log ++ h'.pending = wire s.inst.log ++ h.pending

/-- The step-wise content of R219: a frame in flight always has an enabled agent step, the Line's where the FIFO has no
room; each takes the frame nearer its end, but for a CHAN_ENCODE offered no capacity, which changes nothing. The bytes
that a CHAN_ENCODE of the capacity drawn would read are defined. -/
def Obligations.AgentStepsBringTheFrameNearerItsEnd : Prop :=
  ∀ (s : State) (h : Handle), s.InFlight h → h.Inv s.inst.par → h.DefinedWithin (s.inst.chanCap s.slot h) →
    (∃ m, m ≠ .host ∧ s.inst.ready m = true) ∧
    (h.free = 0 → s.inst.ready .lineEmit = true) ∧
    ∀ m, m ≠ .host → s.inst.ready m = true →
      ∃ h', (s.agentStep m).inst.handle = some h' ∧ (s.agentStep m).inst.fault = 0 ∧
        (h'.work < h.work ∨ m = .chanEncode ∧ s.inst.chanCap s.slot h = 0 ∧ h' = h)

/-- R219: in a weakly fair run a frame in flight ends: Done is delivered, or a STOP halts it, or the instance faults.
A run is the model's notion (log 1): its inputs are given anew at each step. -/
def Obligations.FairRunsEndTheFrame : Prop :=
  ∀ (r : Nat → State) (k n : Nat) (i : Instance) (h : Handle), IsRun r → WeaklyFair r k → (r n).Inv →
    (r n).instances[k]? = some i → i.fault = 0 → i.handle = some h → h.txState ≠ .idle →
    ∃ (m : Nat) (j : Instance), n ≤ m ∧ (r m).instances[k]? = some j ∧
      (j.fault ≠ 0 ∨ ∃ gained, j.log = i.log ++ gained ∧ (.done ∈ gained ∨ ∃ q, .halt q ∈ gained))

/-! ## Whole-machine rules -/

/-- R260: at power-on INITED is false, so no element of the handle holds a value, FAULT is 0 and LOG is empty. -/
def Obligations.PowerOnState : Prop :=
  State.reset.inst.inited = false ∧ State.reset.inst.handle = none ∧ State.reset.inst.fault = 0 ∧
  State.reset.inst.log = []

/-- The invariant holds at reset; the OPEN parameters' values there are the model's (log 6). -/
def Obligations.InvariantHoldsAtReset : Prop := State.reset.Inv

/-- Every step keeps the invariant: legal registers and the templates they give, R29 (a) to (e), the FIFO within its
bound and holding template Symbols only, empty while idle, the buffer canonical and within its L bytes, FAULT bits 9 to
31 clear, no empty Symbol on the wire. -/
def Obligations.StepKeepsTheInvariant : Prop :=
  ∀ s t : State, s.Inv → step s = .next t → t.Inv

/-- R250, R67: a step of one instance leaves every other instance as it is, and the parameters of all. -/
def Obligations.InstancesShareNoState : Prop :=
  ∀ (s t : State) (c : Choice), s.nextChoice = some c → step s = .next t →
    t.instances.map Instance.par = s.instances.map Instance.par ∧
    ∀ k, k ≠ c.slot → t.instances[k]? = s.instances[k]?

/-- What a command other than INIT does to its instance does not depend on the other instances, nor on the schedule: two
systems with the same instance at the same index agree on it afterwards, whatever their other instances hold. One and the
same draw is compared, for TRANSMIT and STOP: it is the oldest one given ahead (log 4), and beyond those the two systems
read one free value because free values are functions of index and counter, which is the model's choice (log 17). -/
def Obligations.CommandsDoNotReadOtherInstances : Prop :=
  ∀ (c : Instr) (s s' t t' : State), (∀ cfg, c ≠ .init cfg) → s.inst = s'.inst → s.slot = s'.slot →
    exec c s = .next t → exec c s' = .next t' → t.inst = t'.inst

/-- R35: no step removes or changes an event of any LOG. R34, R211, R212, R214, R195: while an instance stays
initialised its FIFO changes in three ways only: CHAN_ENCODE appends Symbols, within the capacity drawn, which is within
the free space; LINE_EMIT takes its head and puts it on LOG; a STOP its Host issued empties it. -/
def Obligations.LogIsAppendOnly : Prop :=
  (∀ (s t : State) (k : Nat) (i j : Instance), step s = .next t → s.instances[k]? = some i → t.instances[k]? = some j →
    ∃ gained, j.log = i.log ++ gained) ∧
  ∀ (s t : State) (k : Nat) (i j : Instance) (h h' : Handle), step s = .next t → s.instances[k]? = some i →
    t.instances[k]? = some j → i.handle = some h → j.handle = some h' → h'.fifo ≠ h.fifo →
    (s.nextChoice = some ⟨k, .chanEncode⟩ ∧ ∃ syms, h'.fifo = h.fifo ++ syms ∧ syms.length ≤ i.chanCap k h ∧
      i.chanCap k h ≤ h.cfg.symBufCap.toNat - h.fifo.length) ∨
    (s.nextChoice = some ⟨k, .lineEmit⟩ ∧ ∃ sym, h.fifo = sym :: h'.fifo ∧ j.log = i.log ++ [.sym sym]) ∨
    (s.nextChoice = some ⟨k, .host⟩ ∧ h'.fifo = [] ∧ ∃ p rest, i.prog = p :: rest ∧ decode p = .command .stop)

/-- R22: INITED of an instance, the presence of its handle (log 8), changes only by an INIT or a DEINIT that its Host
issued and that was answered Ok, the one setting it and the other clearing it. R23, R107: while an instance stays
initialised no step changes its configuration and template registers. -/
def Obligations.ConfigurationStaysUntilDeinit : Prop :=
  (∀ (s t : State) (k : Nat) (i j : Instance), step s = .next t → s.instances[k]? = some i → t.instances[k]? = some j →
    i.handle.isSome ≠ j.handle.isSome →
    s.nextChoice = some ⟨k, .host⟩ ∧ j.replies = i.replies ++ [.ok] ∧ ∃ p rest, i.prog = p :: rest ∧
      ((i.handle = none ∧ ∃ cfg, decode p = .command (.init cfg)) ∨
       (j.handle = none ∧ decode p = .command .deinit))) ∧
  ∀ (s t : State) (k : Nat) (i j : Instance) (h h' : Handle), step s = .next t → s.instances[k]? = some i →
    t.instances[k]? = some j → i.handle = some h → j.handle = some h' →
    h'.cfg = h.cfg ∧ h'.bit0 = h.bit0 ∧ h'.bit1 = h.bit1 ∧ h'.latch = h.latch

/-- R31: TX_STATE changes along its four arrows only, each with its own cause: a TRANSMIT answered Ok, a CHAN_ENCODE
whose call reported FrameComplete, a TX_DONE, a STOP. -/
def Obligations.TxStateFollowsItsArrows : Prop :=
  ∀ (s t : State) (c : Choice) (i j : Instance) (h h' : Handle), s.nextChoice = some c → step s = .next t →
    s.instances[c.slot]? = some i → t.instances[c.slot]? = some j → i.handle = some h → j.handle = some h' →
    h'.txState ≠ h.txState →
    (h.txState = .idle ∧ h'.txState = .encoding ∧ c.move = .host ∧ j.replies = i.replies ++ [.ok] ∧
      ∃ p rest, i.prog = p :: rest ∧ decode p = .command .transmit) ∨
    (h.txState = .encoding ∧ h'.txState = .draining ∧ c.move = .chanEncode ∧
      ∃ e, encodeCall (i.chanCap c.slot h) h = some e ∧ e.status = .frameComplete) ∨
    (h.txState = .draining ∧ h'.txState = .idle ∧ c.move = .txDone ∧ j.log = i.log ++ [.done]) ∨
    (h.txState ≠ .idle ∧ h'.txState = .idle ∧ c.move = .host ∧ j.replies = i.replies ++ [.ok] ∧
      (∃ q ≤ h.fifo.length, j.log = i.log ++ (h.fifo.take q).map .sym ++ [.halt q]) ∧
      ∃ p rest, i.prog = p :: rest ∧ decode p = .command .stop)

/-- R33, R50: while an instance stays initialised only SET_PIXEL, issued by its Host, changes a byte of its buffer. -/
def Obligations.OnlySetPixelWritesTheBuffer : Prop :=
  ∀ (s t : State) (c : Choice) (i j : Instance) (h h' : Handle), s.nextChoice = some c → step s = .next t →
    s.instances[c.slot]? = some i → t.instances[c.slot]? = some j → i.handle = some h → j.handle = some h' →
    h'.pb ≠ h.pb →
    c.move = .host ∧ h.txState = .idle ∧
    ∃ p rest index r g b, i.prog = p :: rest ∧ decode p = .command (.setPixel index r g b) ∧
      index.toNat < h.cfg.ledCount.toNat

/-- R151, R262: while an instance stays initialised only ENCODE, CHAN_ENCODE and RESET write PHASE and the cursors; in
particular neither STOP nor TRANSMIT does. -/
def Obligations.OnlyEncodeAndResetMoveTheEncoder : Prop :=
  ∀ (s t : State) (c : Choice) (i j : Instance) (h h' : Handle), s.nextChoice = some c → step s = .next t →
    s.instances[c.slot]? = some i → t.instances[c.slot]? = some j → i.handle = some h → j.handle = some h' →
    (h'.phase, h'.bitCursor, h'.latchCursor) ≠ (h.phase, h.bitCursor, h.latchCursor) →
    c.move = .chanEncode ∨
    c.move = .host ∧ ∃ p rest, i.prog = p :: rest ∧
      (decode p = .command .reset ∨ ∃ cap, decode p = .command (.encode cap))
end

