-- ==== Sys2Proof/Laws/State.lean ====
section
/-! SUPPORT. One lemma per field and update of the state, true by unfolding, so that no later proof unfolds an update. -/

namespace Sys2Proof.Machine

open Sys2Proof

variable (s : State) (i : Instance) (h : Handle) (r : Reply) (c : FaultCode) (d : Draws) (o : Option Handle)

@[simp] theorem State.setInst_inst : (s.setInst i).inst = i := rfl
@[simp] theorem State.setInst_before : (s.setInst i).before = s.before := rfl
@[simp] theorem State.setInst_after : (s.setInst i).after = s.after := rfl
@[simp] theorem State.setInst_sched : (s.setInst i).sched = s.sched := rfl
@[simp] theorem State.setInst_turns : (s.setInst i).turns = s.turns := rfl
@[simp] theorem State.setInst_slot : (s.setInst i).slot = s.slot := rfl
@[simp] theorem State.setInst_setInst (j : Instance) : (s.setInst i).setInst j = s.setInst j := rfl
@[simp] theorem State.setInst_self : s.setInst s.inst = s := rfl

@[simp] theorem State.setHandle_handle : (s.setHandle o).inst.handle = o := rfl
@[simp] theorem State.setHandle_par : (s.setHandle o).inst.par = s.inst.par := rfl
@[simp] theorem State.setHandle_fault : (s.setHandle o).inst.fault = s.inst.fault := rfl
@[simp] theorem State.setHandle_log : (s.setHandle o).inst.log = s.inst.log := rfl
@[simp] theorem State.setHandle_prog : (s.setHandle o).inst.prog = s.inst.prog := rfl
@[simp] theorem State.setHandle_replies : (s.setHandle o).inst.replies = s.inst.replies := rfl
@[simp] theorem State.setHandle_draws : (s.setHandle o).inst.draws = s.inst.draws := rfl

@[simp] theorem State.answer_handle : (s.answer r).inst.handle = s.inst.handle := rfl
@[simp] theorem State.answer_par : (s.answer r).inst.par = s.inst.par := rfl
@[simp] theorem State.answer_fault : (s.answer r).inst.fault = s.inst.fault := rfl
@[simp] theorem State.answer_log : (s.answer r).inst.log = s.inst.log := rfl
@[simp] theorem State.answer_prog : (s.answer r).inst.prog = s.inst.prog := rfl
@[simp] theorem State.answer_replies : (s.answer r).inst.replies = s.inst.replies ++ [r] := rfl
@[simp] theorem State.answer_draws : (s.answer r).inst.draws = s.inst.draws := rfl

@[simp] theorem State.raise_handle : (s.raise c).inst.handle = s.inst.handle := rfl
@[simp] theorem State.raise_par : (s.raise c).inst.par = s.inst.par := rfl
@[simp] theorem State.raise_fault : (s.raise c).inst.fault = s.inst.fault ||| c.mask := rfl
@[simp] theorem State.raise_log : (s.raise c).inst.log = s.inst.log := rfl
@[simp] theorem State.raise_prog : (s.raise c).inst.prog = s.inst.prog := rfl
@[simp] theorem State.raise_replies : (s.raise c).inst.replies = s.inst.replies ++ [.faulted] := rfl
@[simp] theorem State.raise_draws : (s.raise c).inst.draws = s.inst.draws := rfl

@[simp] theorem State.setDraws_handle : (s.setDraws d).inst.handle = s.inst.handle := rfl
@[simp] theorem State.setDraws_par : (s.setDraws d).inst.par = s.inst.par := rfl
@[simp] theorem State.setDraws_fault : (s.setDraws d).inst.fault = s.inst.fault := rfl
@[simp] theorem State.setDraws_log : (s.setDraws d).inst.log = s.inst.log := rfl
@[simp] theorem State.setDraws_prog : (s.setDraws d).inst.prog = s.inst.prog := rfl
@[simp] theorem State.setDraws_replies : (s.setDraws d).inst.replies = s.inst.replies := rfl
@[simp] theorem State.setDraws_draws : (s.setDraws d).inst.draws = d := rfl

@[simp] theorem Instance.raise_handle : (i.raise c).handle = i.handle := rfl
@[simp] theorem Instance.raise_par : (i.raise c).par = i.par := rfl
@[simp] theorem Instance.raise_fault : (i.raise c).fault = i.fault ||| c.mask := rfl
@[simp] theorem Instance.raise_log : (i.raise c).log = i.log := rfl
@[simp] theorem Instance.raise_prog : (i.raise c).prog = i.prog := rfl
@[simp] theorem Instance.raise_replies : (i.raise c).replies = i.replies := rfl
@[simp] theorem Instance.raise_draws : (i.raise c).draws = i.draws := rfl

@[simp] theorem Handle.rewind_cfg : h.rewind.cfg = h.cfg := rfl
@[simp] theorem Handle.rewind_bit0 : h.rewind.bit0 = h.bit0 := rfl
@[simp] theorem Handle.rewind_bit1 : h.rewind.bit1 = h.bit1 := rfl
@[simp] theorem Handle.rewind_latch : h.rewind.latch = h.latch := rfl
@[simp] theorem Handle.rewind_phase : h.rewind.phase = .sending := rfl
@[simp] theorem Handle.rewind_bitCursor : h.rewind.bitCursor = 0 := rfl
@[simp] theorem Handle.rewind_latchCursor : h.rewind.latchCursor = 0 := rfl
@[simp] theorem Handle.rewind_txState : h.rewind.txState = h.txState := rfl
@[simp] theorem Handle.rewind_pb : h.rewind.pb = h.pb := rfl
@[simp] theorem Handle.rewind_fifo : h.rewind.fifo = h.fifo := rfl

@[simp] theorem Instance.quiescent_iff : i.quiescent = true ↔ i.fault ≠ 0 := by simp [Instance.quiescent]

@[simp] theorem Instance.inited_iff : i.inited = true ↔ ∃ h, i.handle = some h := by
  simp [Instance.inited, Option.isSome_iff_exists]

end Sys2Proof.Machine
end

