-- ==== Sys2Proof/Laws/Checks.lean ====
section
/-! SUPPORT. What the shared checks before a command's effect do, once for each kind of state. -/

namespace Sys2Proof.Machine

open Sys2Proof

variable {s : State} {h : Handle} {k : Handle → State} {t : State} {c : FaultCode}

/-- A quiescent instance answers Faulted (60_exceptions.md R232). -/
theorem State.ifAlive_quiescent (hf : s.inst.fault ≠ 0) : s.ifAlive t = s.answer .faulted :=
  if_pos ((Instance.quiescent_iff _).2 hf)

theorem State.ifInited_quiescent (hf : s.inst.fault ≠ 0) : s.ifInited k = s.answer .faulted :=
  State.ifAlive_quiescent hf

theorem State.ifIdle_quiescent (hf : s.inst.fault ≠ 0) : s.ifIdle c k = s.answer .faulted :=
  State.ifInited_quiescent hf

/-- An instance that is not quiescent goes on to the next check. -/
theorem State.ifAlive_alive (hf : s.inst.fault = 0) : s.ifAlive t = t := by simp [State.ifAlive, Instance.quiescent, hf]

/-- An instance waiting for INIT raises NOT_INITIALIZED (60_exceptions.md R236). -/
theorem State.ifInited_blank (hb : s.Blank) : s.ifInited k = s.raise .notInitialized := by
  simp [State.ifInited, State.ifAlive_alive hb.1, hb.2]

theorem State.ifIdle_blank (hb : s.Blank) : s.ifIdle c k = s.raise .notInitialized := State.ifInited_blank hb

/-- A live instance goes on to the next check. -/
theorem State.ifInited_live (hl : s.Live h) : s.ifInited k = k h := by
  simp [State.ifInited, State.ifAlive_alive hl.1, hl.2]

/-- A frame in flight raises the command's fault (60_exceptions.md R233). -/
theorem State.ifIdle_inFlight (hl : s.InFlight h) : s.ifIdle c k = s.raise c := by
  rw [State.ifIdle, State.ifInited_live hl.1, if_neg hl.2]

/-- An idle instance goes on to the command's effect. -/
theorem State.ifIdle_idleAt (hl : s.IdleAt h) : s.ifIdle c k = k h := by
  rw [State.ifIdle, State.ifInited_live hl.1, if_pos hl.2]

/-- Everything the checks up to the in-flight one can lead to. -/
theorem State.ifIdle_cases (s : State) (c : FaultCode) (k : Handle → State) :
    (s.inst.fault ≠ 0 ∧ s.ifIdle c k = s.answer .faulted) ∨
    (s.Blank ∧ s.ifIdle c k = s.raise .notInitialized) ∨
    (∃ h, s.InFlight h ∧ s.ifIdle c k = s.raise c) ∨
    (∃ h, s.IdleAt h ∧ s.ifIdle c k = k h) := by
  by_cases hf : s.inst.fault = 0
  · rcases hh : s.inst.handle with _ | h
    · exact .inr (.inl ⟨⟨hf, hh⟩, State.ifIdle_blank ⟨hf, hh⟩⟩)
    · by_cases ht : h.txState = .idle
      · exact .inr (.inr (.inr ⟨h, ⟨⟨hf, hh⟩, ht⟩, State.ifIdle_idleAt ⟨⟨hf, hh⟩, ht⟩⟩))
      · exact .inr (.inr (.inl ⟨h, ⟨⟨hf, hh⟩, ht⟩, State.ifIdle_inFlight ⟨⟨hf, hh⟩, ht⟩⟩))
  · exact .inl ⟨hf, State.ifIdle_quiescent hf⟩

end Sys2Proof.Machine
end

