-- ==== Sys2Proof/Laws/Memory.lean ====
section
/-! SUPPORT. The laws of the pixel buffer: read after write, every other byte left alone, the canonical form kept. -/

namespace Sys2Proof.Machine

open Sys2Proof

/-- Setting one cell leaves what every other address reads as. -/
theorem cellAt_cellSet_other (a b : Nat) (v : Option Byte) (cells : List Host.Cell) (hab : b ≠ a) :
    cellAt b (cellSet a v cells) = cellAt b cells := by
  induction cells with
  | nil => cases v <;> simp [cellSet, cellAt, Ne.symm hab]
  | cons c rest ih =>
    obtain ⟨x, w⟩ := c
    simp only [cellSet]
    split
    · cases v <;> simp [cellAt, Ne.symm hab]
    · split
      · subst x; cases v <;> simp [cellAt, Ne.symm hab]
      · simp [cellAt, ih]

/-- In rising cells nothing below the first address is listed. -/
theorem cellAt_below (a : Nat) (cells : List Host.Cell) (h : ∀ c ∈ cells, a < c.1) : cellAt a cells = none := by
  induction cells with
  | nil => rfl
  | cons c rest ih =>
    obtain ⟨x, w⟩ := c
    have hx : a < x := h (x, w) (by simp)
    simp [cellAt, Nat.ne_of_gt hx, ih fun c hc => h c (by simp [hc])]

/-- Setting one cell of a rising list sets what its address reads as. -/
theorem cellAt_cellSet_self (a : Nat) (v : Option Byte) (cells : List Host.Cell)
    (h : cells.Pairwise fun x y => x.1 < y.1) : cellAt a (cellSet a v cells) = v := by
  induction cells with
  | nil => cases v <;> simp [cellSet, cellAt]
  | cons c rest ih =>
    obtain ⟨x, w⟩ := c
    obtain ⟨hx, hrest⟩ := List.pairwise_cons.1 h
    simp only [cellSet]
    split
    · rename_i hlt
      cases v with
      | some v => simp [cellAt]
      | none =>
        refine cellAt_below a _ fun c hc => ?_
        rcases List.mem_cons.1 (by simpa using hc) with rfl | hc
        · exact hlt
        · exact lt_trans hlt (hx c hc)
    · split
      · subst x
        cases v with
        | some v => simp [cellAt]
        | none => exact cellAt_below a _ fun c hc => hx c (by simpa using hc)
      · rename_i h1 h2
        simp [cellAt, Ne.symm h2, ih hrest]

/-- A cell after a set is one that stood before or the one set. -/
theorem mem_cellSet {a : Nat} {v : Option Byte} {cells : List Host.Cell} {c : Host.Cell}
    (h : c ∈ cellSet a v cells) : c ∈ cells ∨ (c.1 = a ∧ v = some c.2) := by
  induction cells with
  | nil => cases v <;> simp_all [cellSet]
  | cons d rest ih =>
    obtain ⟨x, w⟩ := d
    simp only [cellSet] at h
    split at h
    · cases v <;> simp_all; aesop
    · split at h
      · cases v <;> simp_all; aesop
      · rcases List.mem_cons.1 h with rfl | h
        · simp
        · rcases ih h with h | h
          · simp [h]
          · exact .inr h

/-- Setting a cell keeps the cells rising. -/
theorem cellSet_rising (a : Nat) (v : Option Byte) (cells : List Host.Cell)
    (h : cells.Pairwise fun x y => x.1 < y.1) : (cellSet a v cells).Pairwise fun x y => x.1 < y.1 := by
  induction cells with
  | nil => cases v <;> simp [cellSet]
  | cons c rest ih =>
    obtain ⟨x, w⟩ := c
    obtain ⟨hx, hrest⟩ := List.pairwise_cons.1 h
    simp only [cellSet]
    split
    · rename_i hlt
      cases v with
      | none => simpa using h
      | some v =>
        refine List.pairwise_cons.2 ⟨fun c hc => ?_, h⟩
        rcases List.mem_cons.1 hc with rfl | hc
        · exact hlt
        · exact lt_trans hlt (hx c hc)
    · split
      · subst x
        cases v with
        | none => simpa using hrest
        | some v => exact List.pairwise_cons.2 ⟨hx, hrest⟩
      · rename_i h1 h2
        refine List.pairwise_cons.2 ⟨fun c hc => ?_, ih hrest⟩
        rcases mem_cellSet hc with hc | ⟨hc, -⟩
        · exact hx c hc
        · simp only [hc]; omega

variable (m : Memory) (a : Nat) (v : Byte)

@[simp] theorem Memory.write_fill : (m.write a v).fill = m.fill := rfl

/-- MemRead after MemWrite at the same byte (20_memory.md R52). -/
theorem Memory.read_write_self (h : m.wf) : (m.write a v).read a = some v := by
  simp only [Memory.read, Memory.write, cellAt_cellSet_self a _ _ h.1]
  split_ifs with hf <;> simp [hf]

/-- MemRead at another byte. -/
theorem Memory.read_write_other (b : Nat) (hb : b ≠ a) : (m.write a v).read b = m.read b := by
  simp [Memory.read, Memory.write, cellAt_cellSet_other a b _ _ hb]

/-- MemWrite keeps the canonical form. -/
theorem Memory.write_wf (h : m.wf) : (m.write a v).wf := by
  refine ⟨cellSet_rising _ _ _ h.1, fun c hc => ?_⟩
  rcases mem_cellSet hc with hc | ⟨-, hc⟩
  · exact h.2 c hc
  · split_ifs at hc with hf
    cases hc
    exact hf

/-- A new pixel buffer is canonical. -/
theorem Memory.fresh_wf (fill : InitFill) : (Memory.fresh fill).wf := by simp [Memory.fresh, Memory.wf]

/-- A byte of a new pixel buffer reads as INIT_FILL says (43_strip_handle.md R174). -/
@[simp] theorem Memory.fresh_read (fill : InitFill) : (Memory.fresh fill).read a = fillByte fill := rfl

/-- Writing a pixel keeps the canonical form. -/
theorem Handle.writePixel_wf (h : Handle) (order : ChannelOrder) (index : Nat) (r g b : Byte) (hw : h.pb.wf) :
    (h.writePixel order index r g b).pb.wf :=
  Memory.write_wf _ _ _ (Memory.write_wf _ _ _ (Memory.write_wf _ _ _ hw))

/-- Writing a pixel leaves every byte outside it alone (43_strip_handle.md R182). -/
theorem Handle.writePixel_read_other (h : Handle) (order : ChannelOrder) (index : Nat) (r g b : Byte) (a : Nat)
    (ha : a < 3 * index ∨ 3 * index + 2 < a) : (h.writePixel order index r g b).pb.read a = h.pb.read a := by
  simp only [Handle.writePixel]
  rw [Memory.read_write_other _ _ _ _ (by omega), Memory.read_write_other _ _ _ _ (by omega),
    Memory.read_write_other _ _ _ _ (by omega)]

/-- The bytes of a pixel after it is written (20_memory.md R53). -/
theorem Handle.writePixel_read (h : Handle) (order : ChannelOrder) (index : Nat) (r g b : Byte) (hw : h.pb.wf) :
    (h.writePixel order index r g b).pb.read (3 * index) = some (arrange order r g b).1 ∧
    (h.writePixel order index r g b).pb.read (3 * index + 1) = some (arrange order r g b).2.1 ∧
    (h.writePixel order index r g b).pb.read (3 * index + 2) = some (arrange order r g b).2.2 := by
  have w1 := Memory.write_wf h.pb (3 * index) (arrange order r g b).1 hw
  have w2 := Memory.write_wf _ (3 * index + 1) (arrange order r g b).2.1 w1
  simp only [Handle.writePixel]
  refine ⟨?_, ?_, Memory.read_write_self _ _ _ w2⟩
  · rw [Memory.read_write_other _ _ _ _ (by omega), Memory.read_write_other _ _ _ _ (by omega),
      Memory.read_write_self _ _ _ hw]
  · rw [Memory.read_write_other _ _ _ _ (by omega), Memory.read_write_self _ _ _ w1]

end Sys2Proof.Machine
end

