-- ==== Sys2Proof/Laws/Construction.lean ====
section
/-! SUPPORT. What a legal configuration is, in plain numbers, and the handle INIT makes of it. -/

namespace Sys2Proof.Machine

open Sys2Proof

variable {par : Params} {cfg : ConfigBlock} {t : Ticks}

/-- The range check and the asymmetry (40_symbols.md R104, R105). -/
theorem timingLegal_iff : timingLegal t = true ↔
    (1 ≤ t.t0h ∧ t.t0h ≤ 32767) ∧ (1 ≤ t.t0l ∧ t.t0l ≤ 32767) ∧ (1 ≤ t.t1h ∧ t.t1h ≤ 32767) ∧
    (1 ≤ t.t1l ∧ t.t1l ≤ 32767) ∧ (1 ≤ t.tl ∧ t.tl ≤ 32767) ∧ t.t0h < t.t1h := by
  simp [timingLegal, tickLegal, and_assoc]

/-- The checks 1 to 4 of 43_strip_handle.md R172 pass. -/
theorem constructionFault_none : constructionFault par cfg = none ↔
    cfg.signalPin ∉ par.invalidPins ∧ (1 ≤ cfg.ledCount.toNat ∧ cfg.ledCount.toNat ≤ par.maxLedCount) ∧
    1 ≤ cfg.symBufCap.toNat ∧ timingLegal (ticks cfg) = true := by
  unfold constructionFault pinValid
  by_cases h1 : cfg.signalPin ∈ par.invalidPins
  · simp [h1]
  · by_cases h2 : 1 ≤ cfg.ledCount.toNat ∧ cfg.ledCount.toNat ≤ par.maxLedCount
    · by_cases h3 : 1 ≤ cfg.symBufCap.toNat
      · simp only [h1, List.contains_eq_mem, decide_false, Bool.not_false, Bool.true_eq_false, if_false,
          not_false_eq_true, true_and]
        rw [if_neg (by omega), if_neg (by omega)]
        cases timingLegal (ticks cfg)
        · simp
        · simp [h2, h3]
      · simp only [h1, List.contains_eq_mem, decide_false, Bool.not_false, Bool.true_eq_false, if_false]
        rw [if_neg (by omega), if_pos (by omega)]
        simp [h3]
    · simp only [h1, List.contains_eq_mem, decide_false, Bool.not_false, Bool.true_eq_false, if_false]
      rw [if_pos (by omega)]
      simp [h2]

/-- The handle of a legal configuration satisfies the handle's invariant. -/
theorem Handle.fresh_inv (hc : constructionFault par cfg = none) : (Handle.fresh par cfg).Inv par := by
  have hl := (constructionFault_none.1 hc).2.1.1
  refine ⟨hc, rfl, rfl, rfl, ⟨Nat.zero_le _, ?_, rfl, ?_, fun _ => ?_, hl⟩, Nat.zero_le _, fun _ => rfl, ?_, rfl,
    Memory.fresh_wf _, ?_⟩
  · simp [Handle.fresh]
  · simp [Handle.fresh]
  · show 0 < 8 * (3 * cfg.ledCount.toNat)
    omega
  · simp [Handle.fresh]
  · simp [Handle.fresh, Memory.fresh]

end Sys2Proof.Machine
end

