-- ==== Sys2Proof/Laws/Encoder.lean ====
section
/-! SUPPORT. What the sub-encoders emit, and what Encode leaves alone. -/

namespace Sys2Proof.Machine

open Sys2Proof

variable {h : Handle} {cap : Nat}

/-- The stream one bit longer. -/
theorem Handle.stream_succ (h : Handle) (c n : Nat) : h.stream c (n + 1) = h.streamSymbol c :: h.stream (c + 1) n := by
  simp [Handle.stream, List.range'_succ]

@[simp] theorem Handle.stream_zero (h : Handle) (c : Nat) : h.stream c 0 = [] := rfl

@[simp] theorem Handle.stream_length (h : Handle) (c n : Nat) : (h.stream c n).length = n := by simp [Handle.stream]

/-- The stream cut in two. -/
theorem Handle.stream_add (h : Handle) (c m n : Nat) : h.stream c (m + n) = h.stream c m ++ h.stream (c + m) n := by
  rw [Handle.stream, ← List.range'_append_1, List.map_append]
  rfl

/-- A bit whose byte is defined has its symbol (20_memory.md R64). -/
theorem Handle.symbolAt_defined {c : Nat} (hd : (h.pb.read (c / 8)).isSome) : h.symbolAt c = some (h.streamSymbol c) := by
  obtain ⟨b, hb⟩ := Option.isSome_iff_exists.1 hd
  simp [Handle.symbolAt, Handle.streamSymbol, byteOfBit, hb]

/-- Bits whose bytes are defined are emitted as the stream has them (41_sub_encoders.md R121). -/
theorem Handle.emitBits_defined (k c : Nat) (hd : ∀ j, c ≤ j → j < c + k → (h.pb.read (j / 8)).isSome) :
    h.emitBits k c = some (h.stream c k) := by
  induction k generalizing c with
  | zero => rfl
  | succ k ih =>
    simp [Handle.emitBits, Handle.symbolAt_defined (hd c le_rfl (by omega)),
      ih (c + 1) fun j h1 h2 => hd j (by omega) (by omega), Handle.stream_succ]

/-- The bits one call emits, where it reads no undef byte. -/
theorem Handle.DefinedWithin.emitBits (hd : h.DefinedWithin cap) (hle : h.bitCursor ≤ h.bits) :
    h.emitBits (min cap (h.bits - h.bitCursor)) h.bitCursor
      = some (h.stream h.bitCursor (min cap (h.bits - h.bitCursor))) :=
  Handle.emitBits_defined _ _ fun j h1 h2 => hd j (by omega) h1 (by omega)

/-- Where every byte is defined no call reads an undef one. -/
theorem Handle.Defined.within (hd : h.Defined) (cap : Nat) : h.DefinedWithin cap := fun c hc _ _ =>
  hd (c / 8) (by simp only [Handle.bits] at hc; omega)

/-- emitBits is none exactly where one of the bits lies in an undef byte (41_sub_encoders.md R130). -/
theorem Handle.emitBits_none (h : Handle) (k c : Nat) :
    h.emitBits k c = none ↔ ∃ j, c ≤ j ∧ j < c + k ∧ h.pb.read (byteOfBit j) = none := by
  induction k generalizing c with
  | zero => simp [Handle.emitBits]; omega
  | succ k ih =>
    rw [Handle.emitBits]
    rcases hs : h.symbolAt c with _ | sym
    · have hr : h.pb.read (byteOfBit c) = none := by simpa [Handle.symbolAt] using hs
      simp only [true_iff]
      exact ⟨c, le_rfl, by omega, hr⟩
    · have hr : h.pb.read (byteOfBit c) ≠ none := by
        intro hr; simp [Handle.symbolAt, hr] at hs
      rcases he : h.emitBits k (c + 1) with _ | rest
      · obtain ⟨j, h1, h2, h3⟩ := (ih (c + 1)).1 he
        simp only [true_iff]
        exact ⟨j, by omega, by omega, h3⟩
      · simp only [reduceCtorEq, false_iff]
        rintro ⟨j, h1, h2, h3⟩
        rcases Nat.eq_or_lt_of_le h1 with rfl | h1
        · exact hr h3
        · exact absurd ((ih (c + 1)).2 ⟨j, h1, by omega, h3⟩) (by simp [he])

/-- What emitBits emits is one Symbol a bit, the bit's own (41_sub_encoders.md R121, R125). -/
theorem Handle.emitBits_some {k c : Nat} {syms : List Symbol} (he : h.emitBits k c = some syms) :
    syms = h.stream c k := by
  induction k generalizing c syms with
  | zero => simpa [Handle.emitBits, eq_comm] using he
  | succ k ih =>
    rw [Handle.emitBits] at he
    rcases hs : h.symbolAt c with _ | sym
    · simp [hs] at he
    · rcases hr : h.emitBits k (c + 1) with _ | rest
      · simp [hs, hr] at he
      · obtain rfl : sym :: rest = syms := by simpa [hs, hr] using he
        obtain ⟨b, hb, rfl⟩ := Option.map_eq_some_iff.1 hs
        rw [ih hr, Handle.stream_succ]
        simp [Handle.streamSymbol, hb]

/-- Every Symbol of the stream is one of the two bit templates. -/
theorem Handle.mem_stream {c n : Nat} {s : Symbol} (hs : s ∈ h.stream c n) : s = h.bit0 ∨ s = h.bit1 := by
  obtain ⟨j, -, rfl⟩ := List.mem_map.1 hs
  unfold Handle.streamSymbol Handle.symbolFor
  split
  · exact .inr rfl
  · exact .inl rfl

/-- A BitEncode call emits COUNT Symbols, within its capacity (41_sub_encoders.md R122, R132). -/
theorem bitEncode_count {b : SubResult} (he : bitEncode cap h = some b) : b.symbols.length = b.count ∧ b.count ≤ cap := by
  unfold bitEncode at he
  split at he
  · cases he; simp
  · dsimp only at he
    split at he
    · cases he
    · rename_i syms hs
      cases he
      simp [Handle.emitBits_some hs]

/-- A LatchEncode call emits COUNT Symbols, within its capacity (41_sub_encoders.md R129, R132). -/
theorem latchEncode_count (cap : Nat) (h : Handle) :
    (latchEncode cap h).symbols.length = (latchEncode cap h).count ∧ (latchEncode cap h).count ≤ cap := by
  unfold latchEncode
  split
  · simp
  · split
    · simp
    · simp only [List.length_singleton, true_and]; omega

/-- The latch appended to `n` Symbols keeps the two counts (42_composite_encoder.md R143). -/
theorem latchStep_count {n : Nat} {syms : List Symbol} (hl : syms.length = n) (hn : n ≤ cap) :
    (latchStep cap n syms h).symbols.length = (latchStep cap n syms h).count ∧ (latchStep cap n syms h).count ≤ cap := by
  have := latchEncode_count (cap - n) h
  unfold latchStep
  dsimp only
  split <;> simp only [List.length_append] <;> omega

/-- An Encode call emits COUNT Symbols, and COUNT ≤ CAP (30_encoding.md R84). -/
theorem encodeCall_count {e : Encoded} (he : encodeCall cap h = some e) : e.symbols.length = e.count ∧ e.count ≤ cap := by
  unfold encodeCall at he
  split at he
  · cases he; simp
  · split at he
    · cases he; exact latchStep_count rfl (Nat.zero_le _)
    · split at he
      · cases he
      · rename_i b hb
        obtain ⟨h1, h2⟩ := bitEncode_count hb
        split at he
        · cases he; exact latchStep_count h1 h2
        · cases he; exact ⟨h1, h2⟩

/-- The parts of a handle Encode never writes: everything but PHASE and the two cursors. -/
structure Handle.SameBut (h h' : Handle) : Prop where
  cfg : h'.cfg = h.cfg
  bit0 : h'.bit0 = h.bit0
  bit1 : h'.bit1 = h.bit1
  latch : h'.latch = h.latch
  txState : h'.txState = h.txState
  pb : h'.pb = h.pb
  fifo : h'.fifo = h.fifo

theorem bitEncode_sameBut {b : SubResult} (he : bitEncode cap h = some b) : h.SameBut b.handle := by
  unfold bitEncode at he
  split at he
  · cases he; exact ⟨rfl, rfl, rfl, rfl, rfl, rfl, rfl⟩
  · dsimp only at he
    split at he
    · cases he
    · cases he; exact ⟨rfl, rfl, rfl, rfl, rfl, rfl, rfl⟩

theorem latchEncode_sameBut (cap : Nat) (h : Handle) : h.SameBut (latchEncode cap h).handle := by
  unfold latchEncode
  split
  · exact ⟨rfl, rfl, rfl, rfl, rfl, rfl, rfl⟩
  · split <;> exact ⟨rfl, rfl, rfl, rfl, rfl, rfl, rfl⟩

theorem latchStep_sameBut (cap n : Nat) (syms : List Symbol) (h : Handle) :
    h.SameBut (latchStep cap n syms h).handle := by
  obtain ⟨h1, h2, h3, h4, h5, h6, h7⟩ := latchEncode_sameBut (cap - n) h
  unfold latchStep
  dsimp only
  split
  · exact ⟨h1, h2, h3, h4, h5, h6, h7⟩
  · exact ⟨h1, h2, h3, h4, h5, h6, h7⟩

/-- Encode writes PHASE and the cursors only (42_composite_encoder.md R140). -/
theorem encodeCall_sameBut {e : Encoded} (he : encodeCall cap h = some e) : h.SameBut e.handle := by
  unfold encodeCall at he
  split at he
  · cases he; exact ⟨rfl, rfl, rfl, rfl, rfl, rfl, rfl⟩
  · split at he
    · cases he; exact latchStep_sameBut _ _ _ _
    · split at he
      · cases he
      · rename_i b hb
        obtain ⟨h1, h2, h3, h4, h5, h6, h7⟩ := bitEncode_sameBut hb
        split at he
        · cases he
          obtain ⟨g1, g2, g3, g4, g5, g6, g7⟩ := latchStep_sameBut cap b.count b.symbols { b.handle with phase := .latching }
          exact ⟨g1.trans h1, g2.trans h2, g3.trans h3, g4.trans h4, g5.trans h5, g6.trans h6, g7.trans h7⟩
        · cases he; exact ⟨h1, h2, h3, h4, h5, h6, h7⟩

end Sys2Proof.Machine
end

