-- ==== Sys2Proof/Laws/Frame.lean ====
section
/-! SUPPORT. The table of one Encode call against the frame it belongs to, and the wire. -/

namespace Sys2Proof.Machine

open Sys2Proof

variable {h h' : Handle} {cap : Nat}

@[simp] theorem Handle.frame_length (h : Handle) : h.frame.length = h.bits + 1 := by simp [Handle.frame]

/-- From the start of a frame the whole frame is left. -/
@[simp] theorem Handle.rewind_rest (h : Handle) : h.rewind.rest = h.frame := by
  simp [Handle.rest, Handle.frame]
  rfl

theorem Handle.EncoderInv.rest_length (hi : h.EncoderInv) : h.rest.length = h.bits - h.bitCursor + 1 := by
  rcases hp : h.phase with _ | _
  · simp [Handle.rest, hp]
  · simp [Handle.rest, hp, hi.2.1 hp]

/-- A handle that differs in PHASE and the cursors only has the same frame. -/
theorem Handle.SameBut.frame_eq (hs : h.SameBut h') : h'.frame = h.frame := by
  simp only [Handle.frame, Handle.stream, Handle.bits, Handle.len, hs.cfg, hs.latch, List.append_cancel_right_eq]
  refine List.map_congr_left fun a _ => ?_
  simp [Handle.streamSymbol, Handle.symbolFor, hs.pb, hs.bit0, hs.bit1]

theorem Handle.SameBut.defined (hs : h.SameBut h') (hd : h.Defined) : h'.Defined := fun a ha => by
  rw [hs.pb]
  exact hd a (by simpa [Handle.len, hs.cfg] using ha)

theorem encodeTable_sameBut (cap : Nat) (h : Handle) : h.SameBut (encodeTable cap h).handle := by
  unfold encodeTable
  dsimp only
  repeat' split
  all_goals exact ⟨rfl, rfl, rfl, rfl, rfl, rfl, rfl⟩

@[simp] theorem encodeTable_length (cap : Nat) (h : Handle) :
    (encodeTable cap h).symbols.length = (encodeTable cap h).count := by
  unfold encodeTable
  dsimp only
  repeat' split
  all_goals simp

/-- A call that does not complete the frame emits the first Symbols of what is left of it, and leaves the others. -/
theorem encodeTable_rest (hi : h.EncoderInv) (hf : (encodeTable cap h).status ≠ .frameComplete) :
    (encodeTable cap h).symbols ++ (encodeTable cap h).handle.rest = h.rest := by
  revert hf
  unfold encodeTable
  dsimp only
  by_cases hc : cap = 0
  · simp [hc]
  · rw [if_neg hc]
    rcases hp : h.phase with _ | _
    · have := hi.2.2.2.2.1 hp
      simp only
      split
      · rename_i hlt
        intro _
        simp only [Handle.rest, hp, Handle.bits, Handle.len] at *
        rw [show 8 * (3 * h.cfg.ledCount.toNat) - h.bitCursor
            = cap + (8 * (3 * h.cfg.ledCount.toNat) - (h.bitCursor + cap)) by omega, Handle.stream_add,
          List.append_assoc]
        rfl
      · split <;> simp [Handle.rest, hp]
    · simp

/-- A call that completes the frame emits all that is left of it and rewinds the encoder. -/
theorem encodeTable_complete (hf : (encodeTable cap h).status = .frameComplete) :
    (encodeTable cap h).symbols = h.rest ∧ (encodeTable cap h).handle = h.rewind := by
  revert hf
  unfold encodeTable
  dsimp only
  by_cases hc : cap = 0
  · simp [hc]
  · rw [if_neg hc]
    rcases hp : h.phase with _ | _
    · simp only
      split
      · simp
      · split <;> simp [Handle.rest, hp]
    · simp [Handle.rest, hp]

/-- Every Symbol a call emits is one of the three templates (30_encoding.md R71). -/
theorem encodeTable_templates {s : Symbol} (hs : s ∈ (encodeTable cap h).symbols) :
    s = h.bit0 ∨ s = h.bit1 ∨ s = h.latch := by
  have key {c n : Nat} (hs : s ∈ h.stream c n) : s = h.bit0 ∨ s = h.bit1 ∨ s = h.latch := by
    rcases Handle.mem_stream hs with h | h <;> simp [h]
  unfold encodeTable at hs
  dsimp only at hs
  split at hs
  · cases hs
  · split at hs
    · exact .inr (.inr (List.mem_singleton.1 hs))
    · split at hs
      · exact key hs
      · split at hs
        · exact key hs
        · rcases List.mem_append.1 hs with hs | hs
          · exact key hs
          · exact .inr (.inr (List.mem_singleton.1 hs))

@[simp] theorem wire_append (a b : List Event) : wire (a ++ b) = wire a ++ wire b := by simp [wire]

@[simp] theorem wire_sym (l : List Symbol) : wire (l.map .sym) = l := by simp [wire]

@[simp] theorem wire_done : wire [.done] = [] := rfl

@[simp] theorem wire_halt (k : Nat) : wire [.halt k] = [] := rfl

end Sys2Proof.Machine
end

