-- ==== Sys2Proof/Laws/PerInstr.lean ====
section
/-! SUPPORT. A family of statements per instruction: the words of a command are in its canonical form. -/

namespace Sys2Proof

/-- The command word as a number: the opcode above 56 operand bits (30_encoding.md R73). -/
theorem encode_word_toNat (i : Instr) :
    (encode i).word.toNat = i.opcode.code.toNat * 2 ^ 56 + i.operandBits.toNat := by
  have h : i.operandBits.toNat < 2 ^ 56 := i.operandBits.isLt
  show (i.opcode.code ++ i.operandBits).toNat = _
  rw [BitVec.toNat_append, ← Nat.shiftLeft_add_eq_or_of_lt h, Nat.shiftLeft_eq]

theorem encode_opcodeNumber (i : Instr) : (encode i).opcodeNumber = i.opcode.code.toNat := by
  have h : i.operandBits.toNat < 2 ^ 56 := i.operandBits.isLt
  rw [CommandWords.opcodeNumber, encode_word_toNat]; omega

theorem encode_operandNumber (i : Instr) : (encode i).operandNumber = i.operandBits.toNat := by
  have h : i.operandBits.toNat < 2 ^ 56 := i.operandBits.isLt
  rw [CommandWords.operandNumber, encode_word_toNat]; omega

/-- The operand bits of SET_PIXEL as a number (R76). -/
theorem setPixel_operandBits_toNat (index : U32) (r g b : Byte) :
    (Instr.setPixel index r g b).operandBits.toNat
      = index.toNat * 2 ^ 24 + r.toNat * 2 ^ 16 + g.toNat * 2 ^ 8 + b.toNat := by
  have hr : r.toNat < 2 ^ 8 := r.isLt
  have hg : g.toNat < 2 ^ 8 := g.isLt
  have hb : b.toNat < 2 ^ 8 := b.isLt
  show (index ++ r ++ g ++ b).toNat = _
  rw [BitVec.toNat_append, BitVec.toNat_append, BitVec.toNat_append, ← Nat.shiftLeft_add_eq_or_of_lt hb,
    ← Nat.shiftLeft_add_eq_or_of_lt hg, ← Nat.shiftLeft_add_eq_or_of_lt hr]
  simp only [Nat.shiftLeft_eq]
  ring

/-- The operand bits of ENCODE as a number (R75). -/
theorem encode_operandBits_toNat (cap : U32) : (Instr.encode cap).operandBits.toNat = cap.toNat := by
  show ((0 : BitVec 24) ++ cap).toNat = _
  rw [BitVec.toNat_append]
  simp

end Sys2Proof

namespace Sys2Proof.Laws.EncodesWellFormed

open Sys2Proof

/-- The encoder writes words that pass the form check of 30_encoding.md R73 to R82. -/
def Statement (i : Instr) : Prop := (encode i).wellFormed = true

/-- The form check read off the opcode's number and the operand bits. -/
theorem of_numbers (i : Instr) (h1 : 1 ≤ i.opcode.code.toNat ∧ i.opcode.code.toNat ≤ 7)
    (h2 : (match i.opcode.code.toNat with
      | 3 => true
      | 7 => decide (i.operandBits.toNat / 2 ^ 32 = 0)
      | _ => decide (i.operandBits.toNat = 0)) = true)
    (h3 : i.opcode.code.toNat = 1 ∨ i.block = ConfigBlock.zero) : Statement i := by
  unfold Statement CommandWords.wellFormed CommandWords.opcodeDefined CommandWords.reservedClear CommandWords.blockFits
  rw [encode_opcodeNumber, encode_operandNumber, decide_eq_true h1, show (encode i).block = i.block from rfl,
    decide_eq_true h3]
  rw [Bool.true_and, Bool.and_true]
  exact h2

theorem init (cfg : ConfigBlock) : Statement (.init cfg) := of_numbers _ (show 1 ≤ 1 ∧ 1 ≤ 7 by decide) rfl (.inl rfl)
theorem deinit : Statement .deinit := of_numbers _ (by decide) rfl (.inr rfl)
theorem setPixel (index : U32) (r g b : Byte) : Statement (.setPixel index r g b) :=
  of_numbers _ (show 1 ≤ 3 ∧ 3 ≤ 7 by decide) rfl (.inr rfl)
theorem transmit : Statement .transmit := of_numbers _ (by decide) rfl (.inr rfl)
theorem stop : Statement .stop := of_numbers _ (by decide) rfl (.inr rfl)
theorem reset : Statement .reset := of_numbers _ (by decide) rfl (.inr rfl)
theorem encode (cap : U32) : Statement (.encode cap) := by
  refine of_numbers _ (show 1 ≤ 7 ∧ 7 ≤ 7 by decide) ?_ (.inr rfl)
  show decide ((Instr.encode cap).operandBits.toNat / 2 ^ 32 = 0) = true
  have h : cap.toNat < 2 ^ 32 := cap.isLt
  rw [encode_operandBits_toNat, decide_eq_true_eq]
  omega

end Sys2Proof.Laws.EncodesWellFormed
end

