-- ==== Sys2Proof/Laws/Schedule.lean ====
section
/-! SUPPORT. The instances under a change of focus, and the choice of the schedule. -/

namespace Sys2Proof.Machine

open Sys2Proof

variable {s : State} {k : Nat} {i j : Instance} {c : Choice}

/-- The instance in focus stands at its index. -/
@[simp] theorem State.instances_slot (s : State) : s.instances[s.slot]? = some s.inst := by
  simp [State.instances, State.slot]

@[simp] theorem State.setInst_instances_slot (s : State) (j : Instance) : (s.setInst j).instances[s.slot]? = some j :=
  State.instances_slot (s.setInst j)

/-- A step of the instance in focus leaves the others where they are. -/
theorem State.setInst_instances_other (s : State) (j : Instance) (hk : k ≠ s.slot) :
    (s.setInst j).instances[k]? = s.instances[k]? := by
  simp only [State.instances, State.setInst, State.slot] at *
  rcases Nat.lt_or_gt_of_ne hk with hlt | hgt
  · simp [List.getElem?_append_left hlt]
  · obtain ⟨n, rfl⟩ := Nat.exists_eq_add_of_lt hgt
    simp [List.getElem?_append_right, Nat.add_assoc]

@[simp] theorem State.setInst_instances_length (s : State) (j : Instance) :
    (s.setInst j).instances.length = s.instances.length := by simp [State.instances]

theorem State.mem_setInst_instances (hi : i ∈ (s.setInst j).instances) : i = j ∨ i ∈ s.instances := by
  simp only [State.instances, State.setInst_before, State.setInst_after, State.setInst_inst, List.mem_append,
    List.mem_cons] at *
  tauto

theorem State.inst_mem_instances (s : State) : s.inst ∈ s.instances := by simp [State.instances]

/-- A change of focus moves no instance. -/
@[simp] theorem State.focus_instances (s : State) (k : Nat) : (s.focus k).instances = s.instances := by
  unfold State.focus
  split
  · rename_i i hi
    obtain ⟨hk, rfl⟩ := List.getElem?_eq_some_iff.1 hi
    simp [State.instances]
  · rfl

/-- The instance asked for is then in focus. -/
theorem State.focus_inst (hi : s.instances[k]? = some i) : (s.focus k).inst = i := by simp [State.focus, hi]

theorem State.focus_slot (hi : s.instances[k]? = some i) : (s.focus k).slot = k := by
  have hk : k < s.instances.length := (List.getElem?_eq_some_iff.1 hi).1
  simp [State.focus, hi, State.slot, Nat.min_eq_left (Nat.le_of_lt hk)]

@[simp] theorem State.focus_sched (s : State) (k : Nat) : (s.focus k).sched = s.sched := by
  unfold State.focus; split <;> rfl

@[simp] theorem State.focus_turns (s : State) (k : Nat) : (s.focus k).turns = s.turns := by
  unfold State.focus; split <;> rfl

@[simp] theorem State.turn_instances (s : State) (c : Choice) : (s.turn c).instances = s.instances :=
  State.focus_instances s c.slot

/-- An allowed choice names an instance that is ready for it. -/
theorem State.allows_iff : s.allows c = true ↔ ∃ i, s.instances[c.slot]? = some i ∧ i.ready c.move = true := by
  unfold State.allows
  split <;> simp_all

/-- The enabled steps are the allowed choices. -/
theorem State.mem_enabled : c ∈ s.enabled ↔ s.allows c = true := by
  rw [State.allows_iff]
  constructor
  · intro hc
    obtain ⟨k, -, hc⟩ := List.mem_flatMap.1 hc
    split at hc
    · rename_i i hi
      obtain ⟨m, hm, rfl⟩ := List.mem_map.1 hc
      exact ⟨i, hi, (List.mem_filter.1 hm).2⟩
    · simp at hc
  · rintro ⟨i, hi, hr⟩
    refine List.mem_flatMap.2 ⟨c.slot, List.mem_range.2 (List.getElem?_eq_some_iff.1 hi).1, ?_⟩
    rw [hi]
    refine List.mem_map.2 ⟨c.move, List.mem_filter.2 ⟨?_, hr⟩, rfl⟩
    cases c.move <;> simp

/-- The schedule begins with an allowed choice. -/
theorem State.schedule_allows {rest : List Choice} (h : s.schedule = c :: rest) : s.allows c = true := by
  have := List.head?_dropWhile_not (fun c => !s.allows c) s.sched
  rw [show s.sched.dropWhile (fun c => !s.allows c) = c :: rest from h] at this
  simpa using this

/-- The free choice is among the enabled steps. -/
theorem State.freeChoice_mem (h : s.freeChoice = some c) : c ∈ s.enabled := by
  unfold State.freeChoice at h
  split at h
  · cases h
  · rename_i d hd; cases h; simp [hd]
  · rename_i d ds hd
    cases h
    rw [hd]
    rw [List.getElem?_eq_getElem (Nat.mod_lt _ (by simp))]
    exact List.getElem_mem _

end Sys2Proof.Machine
end

