-- ==== Sys2Proof/Laws/Steps.lean ====
section
/-! SUPPORT. Everything a command and a step can do to the instance they act on, said once. -/

namespace Sys2Proof.Machine

open Sys2Proof

/-- All that command `c`, or a word that is none, can make of instance `i`. -/
inductive CommandEffect (c : Option Instr) (i j : Instance) : Prop where
  /-- A refusal, an error, a fault or a STOP of an idle instance: handle and LOG stay. -/
  | kept (handle : j.handle = i.handle) (log : j.log = i.log)
      (fault : j.fault = i.fault ∨ i.fault = 0 ∧ ∃ f : FaultCode, j.fault = f.mask)
  | init (cfg : ConfigBlock) (cmd : c = some (.init cfg)) (was : i.handle = none)
      (legal : constructionFault i.par cfg = none) (handle : j.handle = some (Handle.fresh i.par cfg))
      (log : j.log = i.log) (alive : i.fault = 0) (fault : j.fault = i.fault) (replies : j.replies = i.replies ++ [.ok])
  | deinit (h : Handle) (cmd : c = some .deinit) (was : i.handle = some h) (idle : h.txState = .idle)
      (handle : j.handle = none) (log : j.log = i.log) (alive : i.fault = 0) (fault : j.fault = i.fault)
      (replies : j.replies = i.replies ++ [.ok])
  | setPixel (h : Handle) (index : U32) (r g b : Byte) (cmd : c = some (.setPixel index r g b))
      (was : i.handle = some h) (idle : h.txState = .idle) (inRange : index.toNat < h.cfg.ledCount.toNat)
      (handle : j.handle = some (h.writePixel i.par.channelOrder index.toNat r g b))
      (log : j.log = i.log) (alive : i.fault = 0) (fault : j.fault = i.fault)
  | transmit (h : Handle) (cmd : c = some .transmit) (was : i.handle = some h) (idle : h.txState = .idle)
      (handle : j.handle = some { h with txState := .encoding })
      (log : j.log = i.log) (alive : i.fault = 0) (fault : j.fault = i.fault) (replies : j.replies = i.replies ++ [.ok])
  | stop (h : Handle) (k : Nat) (cmd : c = some .stop) (was : i.handle = some h) (active : h.txState ≠ .idle)
      (bound : k ≤ h.fifo.length)
      (handle : j.handle = some { h with fifo := [], txState := .idle })
      (log : j.log = i.log ++ (h.fifo.take k).map Event.sym ++ [.halt k]) (alive : i.fault = 0) (fault : j.fault = i.fault)
      (replies : j.replies = i.replies ++ [.ok])
  | reset (h : Handle) (cmd : c = some .reset) (was : i.handle = some h) (idle : h.txState = .idle)
      (handle : j.handle = some h.rewind) (log : j.log = i.log) (alive : i.fault = 0) (fault : j.fault = i.fault)
  | encode (h : Handle) (cap : U32) (e : Encoded) (cmd : c = some (.encode cap)) (was : i.handle = some h)
      (idle : h.txState = .idle) (call : encodeCall cap.toNat h = some e)
      (handle : j.handle = some e.handle) (log : j.log = i.log) (alive : i.fault = 0) (fault : j.fault = i.fault)

variable {s t : State}

/-- The checks before an effect change nothing but the instance in focus, and of that neither program nor parameters,
if the effect does not. -/
theorem ifIdle_effect (f : FaultCode) (k : Handle → State) (c : Option Instr)
    (hk : ∀ h, s.IdleAt h → ∃ j, k h = s.setInst j ∧ j.prog = s.inst.prog ∧ j.par = s.inst.par ∧ CommandEffect c s.inst j) :
    ∃ j, s.ifIdle f k = s.setInst j ∧ j.prog = s.inst.prog ∧ j.par = s.inst.par ∧ CommandEffect c s.inst j := by
  rcases State.ifIdle_cases s f k with ⟨hf, he⟩ | ⟨hb, he⟩ | ⟨h, hi, he⟩ | ⟨h, hi, he⟩
  · exact ⟨_, he, rfl, rfl, .kept rfl rfl (.inl rfl)⟩
  · exact ⟨_, he, rfl, rfl, .kept rfl rfl (.inr ⟨hb.1, .notInitialized, by simp [hb.1]⟩)⟩
  · exact ⟨_, he, rfl, rfl, .kept rfl rfl (.inr ⟨hi.1.1, f, by simp [hi.1.1]⟩)⟩
  · rw [he]; exact hk h hi

/-- STOP_K is at most what is queued (00_scope.md R11). -/
theorem Instance.stopK_le (i : Instance) (k : Nat) (h : Handle) : i.stopK k h ≤ h.fifo.length :=
  Nat.lt_succ_iff.1 (Nat.mod_lt _ (Nat.succ_pos _))

/-- CHAN_CAP is at most the free space (44_channel.md R210). -/
theorem Instance.chanCap_le (i : Instance) (k : Nat) (h : Handle) : i.chanCap k h ≤ h.free :=
  Nat.lt_succ_iff.1 (Nat.mod_lt _ (Nat.succ_pos _))

/-- Everything a command can do. -/
theorem exec_effect (c : Instr) (s : State) :
    ∃ j, exec c s = .next (s.setInst j) ∧ j.prog = s.inst.prog ∧ j.par = s.inst.par ∧ CommandEffect (some c) s.inst j := by
  have lift {u : State} (h : ∃ j, u = s.setInst j ∧ j.prog = s.inst.prog ∧ j.par = s.inst.par ∧ CommandEffect (some c) s.inst j) :
      ∃ j, (.next u : Host.Outcome State Fault Refusal) = .next (s.setInst j) ∧ j.prog = s.inst.prog ∧
        j.par = s.inst.par ∧ CommandEffect (some c) s.inst j := h.imp fun _ h => ⟨congrArg _ h.1, h.2⟩
  cases c with
  | init cfg =>
    refine lift ?_
    by_cases hf : s.inst.fault = 0
    · rw [State.ifAlive_alive hf]
      rcases hh : s.inst.handle with _ | h
      · simp only [Instance.inited, hh, Option.isSome_none, Bool.false_eq_true, if_false]
        split
        · exact ⟨_, rfl, rfl, rfl, .kept rfl rfl (.inl rfl)⟩
        · rename_i hc
          split
          · exact ⟨_, rfl, rfl, rfl, .kept rfl rfl (.inl rfl)⟩
          · split
            · exact ⟨_, rfl, rfl, rfl, .init cfg rfl hh hc rfl rfl hf rfl rfl⟩
            · exact ⟨_, rfl, rfl, rfl, .kept rfl rfl (.inl rfl)⟩
      · simp only [Instance.inited, hh, Option.isSome_some, if_true]
        exact ⟨_, rfl, rfl, rfl, .kept rfl rfl (.inr ⟨hf, .doubleInit, by simp [hf]⟩)⟩
    · rw [State.ifAlive_quiescent hf]
      exact ⟨_, rfl, rfl, rfl, .kept rfl rfl (.inl rfl)⟩
  | deinit =>
    exact lift (ifIdle_effect _ _ _ fun h hi => ⟨_, rfl, rfl, rfl, .deinit h rfl hi.1.2 hi.2 rfl rfl hi.1.1 rfl rfl⟩)
  | setPixel index r g b =>
    refine lift (ifIdle_effect _ _ _ fun h hi => ?_)
    split
    · rename_i hlt
      exact ⟨_, rfl, rfl, rfl, .setPixel h index r g b rfl hi.1.2 hi.2 hlt rfl rfl hi.1.1 rfl⟩
    · exact ⟨_, rfl, rfl, rfl, .kept rfl rfl (.inl rfl)⟩
  | transmit =>
    refine lift (ifIdle_effect _ _ _ fun h hi => ?_)
    dsimp only
    split
    · exact ⟨_, rfl, rfl, rfl, .transmit h rfl hi.1.2 hi.2 rfl rfl hi.1.1 rfl rfl⟩
    · exact ⟨_, rfl, rfl, rfl, .kept rfl rfl (.inl rfl)⟩
  | stop =>
    refine lift ?_
    by_cases hf : s.inst.fault = 0
    · rcases hh : s.inst.handle with _ | h
      · rw [State.ifInited_blank ⟨hf, hh⟩]
        exact ⟨_, rfl, rfl, rfl, .kept rfl rfl (.inr ⟨hf, .notInitialized, by simp [hf]⟩)⟩
      · rw [State.ifInited_live ⟨hf, hh⟩]
        split
        · exact ⟨_, rfl, rfl, rfl, .kept rfl rfl (.inl rfl)⟩
        · rename_i ha
          exact ⟨_, rfl, rfl, rfl, .stop h _ rfl hh ha (s.inst.stopK_le _ h) rfl rfl hf rfl rfl⟩
    · rw [State.ifInited_quiescent hf]
      exact ⟨_, rfl, rfl, rfl, .kept rfl rfl (.inl rfl)⟩
  | reset =>
    exact lift (ifIdle_effect _ _ _ fun h hi => ⟨_, rfl, rfl, rfl, .reset h rfl hi.1.2 hi.2 rfl rfl hi.1.1 rfl⟩)
  | encode cap =>
    refine lift (ifIdle_effect _ _ _ fun h hi => ?_)
    split
    · exact ⟨_, rfl, rfl, rfl, .kept rfl rfl (.inr ⟨hi.1.1, .uninitPixelRead, by simp [hi.1.1]⟩)⟩
    · rename_i e he
      exact ⟨_, rfl, rfl, rfl, .encode h cap e rfl hi.1.2 hi.2 he rfl rfl hi.1.1 rfl⟩

/-- Everything a word that is no command can do (30_encoding.md R81). -/
theorem issueIllegal_effect (s : State) :
    ∃ j, s.issueIllegal = s.setInst j ∧ j.prog = s.inst.prog ∧ j.par = s.inst.par ∧ CommandEffect none s.inst j := by
  by_cases hf : s.inst.fault = 0
  · exact ⟨_, State.ifAlive_alive hf, rfl, rfl, .kept rfl rfl (.inr ⟨hf, .illegalCommand, by simp [hf]⟩)⟩
  · exact ⟨_, State.ifAlive_quiescent hf, rfl, rfl, .kept rfl rfl (.inl rfl)⟩

/-- All that the chosen step `m` of the instance at index `k` can make of it. -/
inductive StepEffect (k : Nat) (m : Move) (i j : Instance) : Prop where
  | host (p : CommandWords) (rest : List CommandWords) (c : Option Instr) (hm : m = .host) (was : i.prog = p :: rest)
      (decoded : ∀ a, decode p = .command a ↔ c = some a) (prog : j.prog = rest)
      (effect : CommandEffect c { i with prog := rest } j)
  /-- CHAN_ENCODE stopped by an undef byte. -/
  | undef (h : Handle) (hm : m = .chanEncode) (was : i.handle = some h) (alive : i.fault = 0) (tx : h.txState = .encoding)
      (call : encodeCall (i.chanCap k h) h = none) (prog : j.prog = i.prog) (handle : j.handle = i.handle)
      (log : j.log = i.log) (fault : j.fault = FaultCode.uninitPixelRead.mask)
  | chanEncode (h : Handle) (e : Encoded) (hm : m = .chanEncode) (was : i.handle = some h) (alive : i.fault = 0)
      (tx : h.txState = .encoding) (call : encodeCall (i.chanCap k h) h = some e) (prog : j.prog = i.prog)
      (handle : j.handle = some { e.handle with
        fifo := h.fifo ++ e.symbols, txState := h.txState.afterEncode e.status })
      (log : j.log = i.log) (fault : j.fault = i.fault)
  | lineEmit (h : Handle) (sym : Symbol) (rest : List Symbol) (hm : m = .lineEmit) (was : i.handle = some h)
      (alive : i.fault = 0) (tx : h.txState ≠ .idle) (queue : h.fifo = sym :: rest) (prog : j.prog = i.prog)
      (handle : j.handle = some { h with fifo := rest }) (log : j.log = i.log ++ [.sym sym]) (fault : j.fault = i.fault)
  | txDone (h : Handle) (hm : m = .txDone) (was : i.handle = some h) (alive : i.fault = 0) (tx : h.txState = .draining)
      (queue : h.fifo = []) (prog : j.prog = i.prog) (handle : j.handle = some { h with txState := .idle })
      (log : j.log = i.log ++ [.done]) (fault : j.fault = i.fault)

/-- The schedule's choice is an enabled step of an instance of the system (60_exceptions.md R246). -/
theorem State.nextChoice_ready {c : Choice} (h : s.nextChoice = some c) :
    ∃ i, s.instances[c.slot]? = some i ∧ i.ready c.move = true := by
  refine State.allows_iff.1 ?_
  unfold State.nextChoice at h
  split at h
  · rename_i hs; cases h; exact State.schedule_allows hs
  · exact State.mem_enabled.1 (State.freeChoice_mem h)

/-- Everything a Channel or Line step that is enabled can do. -/
theorem agentStep_effect {m : Move} (hr : s.inst.ready m = true) (hm : m ≠ .host) :
    ∃ j, s.agentStep m = s.setInst j ∧ j.par = s.inst.par ∧ StepEffect s.slot m s.inst j := by
  rcases hh : s.inst.handle with _ | h
  · cases m <;> simp [Instance.ready, hh] at hr hm
  · cases m with
    | host => exact absurd rfl hm
    | chanEncode =>
      obtain ⟨hf, ht⟩ : s.inst.fault = 0 ∧ h.txState = .encoding := by simpa [Instance.ready, hh, Instance.quiescent] using hr
      refine ⟨s.inst.chanEncode h (s.inst.chanCap s.slot h), by simp [State.agentStep, hh], ?_⟩
      rcases he : encodeCall (s.inst.chanCap s.slot h) h with _ | e
      · simp only [Instance.chanEncode, he]
        exact ⟨rfl, .undef h rfl hh hf ht he rfl rfl rfl (by simp [hf])⟩
      · simp only [Instance.chanEncode, he]
        exact ⟨trivial, .chanEncode h e rfl hh hf ht he rfl rfl rfl rfl⟩
    | lineEmit =>
      obtain ⟨⟨hf, ht⟩, hq⟩ : (s.inst.fault = 0 ∧ h.txState ≠ .idle) ∧ h.fifo ≠ [] := by
        simpa [Instance.ready, hh, Instance.quiescent] using hr
      refine ⟨s.inst.lineEmit h, by simp [State.agentStep, hh], ?_⟩
      rcases hq' : h.fifo with _ | ⟨sym, rest⟩
      · exact absurd hq' hq
      · simp only [Instance.lineEmit, hq']
        exact ⟨trivial, .lineEmit h sym rest rfl hh hf ht hq' rfl rfl rfl rfl⟩
    | txDone =>
      obtain ⟨⟨hf, ht⟩, hq⟩ : (s.inst.fault = 0 ∧ h.txState = .draining) ∧ h.fifo = [] := by
        simpa [Instance.ready, hh, Instance.quiescent] using hr
      exact ⟨s.inst.txDone h, by simp [State.agentStep, hh], rfl, .txDone h rfl hh hf ht hq rfl rfl rfl rfl⟩

/-- Everything a step can do: it acts on one instance, the chosen one, and leaves its parameters and the other instances
alone. -/
theorem step_effect (h : step s = .next t) :
    ∃ c i j, s.nextChoice = some c ∧ s.instances[c.slot]? = some i ∧ i.ready c.move = true ∧
      t = (s.turn c).setInst j ∧ t.instances[c.slot]? = some j ∧ j.par = i.par ∧
        StepEffect c.slot c.move i j := by
  unfold step at h
  rcases hc : s.nextChoice with _ | c
  · simp [hc] at h
  · simp only [hc] at h
    obtain ⟨i, hi, hr⟩ := State.nextChoice_ready hc
    have hinst : (s.turn c).inst = i := State.focus_inst hi
    have hslot : (s.turn c).slot = c.slot := State.focus_slot hi
    suffices hs : ∃ j, t = (s.turn c).setInst j ∧ j.par = i.par ∧ StepEffect c.slot c.move i j by
      obtain ⟨j, rfl, hj, he⟩ := hs
      exact ⟨c, i, j, rfl, hi, hr, rfl, by rw [← hslot]; exact State.setInst_instances_slot _ _, hj, he⟩
    by_cases hm : c.move = .host
    · rw [hm] at h hr ⊢
      simp only [runMove, issueNext, hinst] at h
      rcases hp : i.prog with _ | ⟨p, rest⟩
      · simp [Instance.ready, hp] at hr
      · simp only [hp] at h
        rcases hd : decode p with a | why
        · rw [hd] at h
          obtain ⟨j, he, hj, hpar, hE⟩ := exec_effect a ((s.turn c).setInst { i with prog := rest })
          simp only [he, Host.Outcome.next.injEq] at h
          exact ⟨j, h.symm, hpar, .host p rest (some a) rfl hp (fun b => by simp [hd]) hj (by simpa using hE)⟩
        · rw [hd] at h
          obtain ⟨j, he, hj, hpar, hE⟩ := issueIllegal_effect ((s.turn c).setInst { i with prog := rest })
          simp only [he, Host.Outcome.next.injEq] at h
          exact ⟨j, h.symm, hpar, .host p rest none rfl hp (fun b => by simp [hd]) hj (by simpa using hE)⟩
    · obtain ⟨j, he, hpar, hE⟩ := agentStep_effect (s := s.turn c) (by rw [hinst]; exact hr) hm
      have : runMove c.move (s.turn c) = .next ((s.turn c).agentStep c.move) := by
        revert hm; cases c.move <;> simp [runMove]
      rw [this, he, Host.Outcome.next.injEq] at h
      exact ⟨j, h.symm, by rw [hpar, hinst], by simpa [hinst, hslot] using hE⟩

/-- A step leaves every instance but the chosen one where and as it was (60_exceptions.md R250). -/
theorem turn_setInst_other {c : Choice} {i j : Instance} {k : Nat} (hi : s.instances[c.slot]? = some i)
    (hk : k ≠ c.slot) :
    ((s.turn c).setInst j).instances[k]? = s.instances[k]? := by
  rw [State.setInst_instances_other _ _ (by rwa [show (s.turn c).slot = c.slot from State.focus_slot hi]),
    State.turn_instances]

end Sys2Proof.Machine
end

