-- ==== Sys2Proof/Tests/Slice0.lean ====
section
/-! SUPPORT. The form checks refuse what is ill formed; the decoder on words written out from the spec; single steps
against 95_test_vectors.md; and, for each statement with hypotheses, a witness that meets them. -/

namespace Sys2Proof.Tests

open Sys2Proof Sys2Proof.Machine

/-! ## The configuration SC of 95_test_vectors.md and small states over it -/

/-- Row SC. -/
def scBlock : ConfigBlock := ⟨0, 1, 10000000, 300, 900, 900, 300, 25000, 4⟩

/-- BIT0_SYM, BIT1_SYM and LATCH_SYM of row SC. -/
def b0 : Symbol := ⟨true, 3, false, 9⟩
def b1 : Symbol := ⟨true, 9, false, 3⟩
def la : Symbol := ⟨false, 250, false, 250⟩

/-- An SC handle over PB = [0x00, 0xFF, 0x00]. -/
def sc (tx : TxState) (phase : Phase) (cursor : Nat) (fifo : List Symbol) : Handle :=
  { cfg := scBlock, bit0 := b0, bit1 := b1, latch := la, phase := phase, bitCursor := cursor, latchCursor := 0,
    txState := tx, pb := ⟨.undef, [(0, 0x00), (1, 0xFF), (2, 0x00)]⟩, fifo := fifo }

/-- The handle of program P6: two LEDs, of which the first pixel is written and the second is undef. -/
def p6 (tx : TxState) (cursor : Nat) (fifo : List Symbol) : Handle :=
  { sc tx .sending cursor fifo with cfg := { scBlock with ledCount := 2 } }

/-- An SC handle no byte of which is written. -/
def scUndef (tx : TxState) : Handle := { sc tx .sending 0 [] with pb := ⟨.undef, []⟩ }

/-- The system with one instance that holds `h`, its next draws given. -/
def on (h : Option Handle) : State :=
  { State.reset with
    inst := { Instance.powerOn Params.atReset with handle := h, draws := ⟨[true], [true], [4], [1], 0⟩ } }

def idle0 : State := on (some (sc .idle .sending 0 []))
def busy4 : State := on (some (sc .encoding .sending 4 [b0, b0]))

/-- The system with the next draw of ALLOC_OK and of CHAN_ACCEPT false. -/
def refusing (s : State) : State := { s with inst := { s.inst with draws := ⟨[false], [false], [], [], 0⟩ } }

/-- The instance with another CHANNEL_ORDER. -/
def ordered (o : ChannelOrder) (i : Instance) : Instance := { i with par := { i.par with channelOrder := o } }

def quiet (s : State) : State := { s with inst := { s.inst with fault := 2 } }

/-- The system about to take the step `m` of its one instance. -/
def taking (s : State) (m : Move) (prog : List CommandWords) : State :=
  { s with sched := [⟨0, m⟩], inst := { s.inst with prog := prog } }

/-- What an outcome leaves of the instance in focus. -/
def left {α : Type} (f : Instance → α) (o : Host.Outcome State Fault Refusal) : Option α :=
  match o with
  | .next t => some (f t.inst)
  | _ => none

/-- PHASE, the cursors, TX_STATE. -/
def registers (i : Instance) : Option (Phase × Nat × Fin 2 × TxState) :=
  i.handle.map fun h => (h.phase, h.bitCursor, h.latchCursor, h.txState)

/-- The three bytes of the first pixel. -/
def pixel (i : Instance) : Option (List (Option Byte)) :=
  i.handle.map fun h => [h.pb.read 0, h.pb.read 1, h.pb.read 2]

/-! ## The form checks -/

theorem test_form_refuses_reserved_opcode :
    (CommandWords.mk 0x0800000000000000 ConfigBlock.zero).opcodeDefined = false := by decide
theorem test_form_refuses_opcode_zero : (CommandWords.mk 0 ConfigBlock.zero).wellFormed = false := by decide
theorem test_form_refuses_reserved_bit_N :
    (CommandWords.mk 0x0400000000000001 ConfigBlock.zero).reservedClear = false := by decide
theorem test_form_refuses_reserved_bit_I :
    (CommandWords.mk 0x0180000000000000 scBlock).reservedClear = false := by decide
theorem test_form_refuses_reserved_bit_E :
    (CommandWords.mk 0x0700000100000000 ConfigBlock.zero).reservedClear = false := by decide
theorem test_form_refuses_stray_block : (CommandWords.mk 0x0400000000000000 scBlock).blockFits = false := by decide
theorem test_form_accepts : (CommandWords.mk 0x0300000001123456 ConfigBlock.zero).wellFormed = true := by decide
theorem test_line_refuses_arity : Line.wellFormed ⟨.setPixel, [0, 1, 2]⟩ = false := by decide
theorem test_line_refuses_byte : Line.operandsFit ⟨.setPixel, [0, 0x100, 0, 0]⟩ = false := by decide
theorem test_line_refuses_index : Line.operandsFit ⟨.setPixel, [0x100000000, 0, 0, 0]⟩ = false := by decide
theorem test_line_refuses_capacity : Line.operandsFit ⟨.encode, [0x100000000]⟩ = false := by decide
theorem test_line_refuses_block_word :
    Line.operandsFit ⟨.init, [0, 1, 10000000, 300, 900, 900, 300, 0x100000000, 4]⟩ = false := by decide

/-! ## The decoder, words from R87 and V-DEC -/

theorem test_decode_init : decode ⟨0x0100000000000000, scBlock⟩ = .command (.init scBlock) := by decide
theorem test_decode_deinit : decode ⟨0x0200000000000000, ConfigBlock.zero⟩ = .command .deinit := by decide
theorem test_decode_setPixel :
    decode ⟨0x0300000001123456, ConfigBlock.zero⟩ = .command (.setPixel 1 0x12 0x34 0x56) := by decide
theorem test_decode_setPixel_V_DEC_8 :
    decode ⟨0x03FFFFFFFFFFFFFF, ConfigBlock.zero⟩ = .command (.setPixel 0xFFFFFFFF 0xFF 0xFF 0xFF) := by decide
theorem test_decode_transmit : decode ⟨0x0400000000000000, ConfigBlock.zero⟩ = .command .transmit := by decide
theorem test_decode_stop : decode ⟨0x0500000000000000, ConfigBlock.zero⟩ = .command .stop := by decide
theorem test_decode_reset : decode ⟨0x0600000000000000, ConfigBlock.zero⟩ = .command .reset := by decide
theorem test_decode_encode_V_DEC_7 :
    decode ⟨0x07000000FFFFFFFF, ConfigBlock.zero⟩ = .command (.encode 4294967295) := by decide
theorem test_decode_illegal_V_DEC_1_to_6 :
    ([0x0000000000000000, 0x0800000000000000, 0xFF00000000000000, 0x0400000000000001, 0x0180000000000000,
      0x0700000100000000] : List U64).map (fun w => decode ⟨w, ConfigBlock.zero⟩)
      = [.illegal .reservedOpcode, .illegal .reservedOpcode, .illegal .reservedOpcode, .illegal .reservedBits,
         .illegal .reservedBits, .illegal .reservedBits] := by decide

/-- INIT's words numbered on from the command word: word 2 of the block is 0x00989680 (program P1), word 8 stands at
the top. -/
theorem test_decode_table_word_init :
    decodeTableWord 160 0x0098968000000000000000000100000000000000 = some (.init ⟨0, 0, 10000000, 0, 0, 0, 0, 0, 0⟩) ∧
    ConfigBlock.ofNat (4 * 2 ^ 256) = ⟨0, 0, 0, 0, 0, 0, 0, 0, 4⟩ := by decide

/-! ## The assembler (R85 to R87) -/

theorem test_assemble_setPixel :
    assembleText 1 "SET_PIXEL 1, 0x12, 0x34, 0x56 ; P2".toList = some [.setPixel 1 0x12 0x34 0x56] := by decide
theorem test_assemble_init :
    assembleText 1 "INIT 0, 1, 10000000, 300, 900, 900, 300, 25000, 4".toList = some [.init scBlock] := by decide
theorem test_assemble_clear :
    assembleText 2 "CLEAR".toList = some [.setPixel 0 0 0 0, .setPixel 1 0 0 0] := by decide
theorem test_assemble_refuses : assembleText 1 "SET_PIXEL 0, 0x100, 0, 0".toList = none := by decide

/-! ## Single steps, one or two per command -/

/-- V-INI-1, with the templates of R110. -/
theorem test_init_V_INI_1 :
    left (fun i => i.handle.map fun h => (h.bit0.word, h.bit1.word, h.latch.word)) (exec (.init scBlock) (on none))
    = some (some (0x00098003, 0x00038009, 0x00FA00FA)) := by decide
/-- V-INI-8: CONFIG is checked before TIMING. -/
theorem test_init_V_INI_8 :
    left (fun i => (i.handle, i.replies)) (exec (.init { scBlock with ledCount := 0, tickResHz := 0 }) (on none))
    = some (none, [.constructionError .config]) := by decide
/-- V-TICK-6 and V-TICK-7: the last legal tick count and the first illegal one. -/
theorem test_ticks_V_TICK_6_7 :
    constructionFault Params.atReset { scBlock with latchLowNs := 3276700 } = none ∧
    constructionFault Params.atReset { scBlock with latchLowNs := 3276800 } = some .timing := by decide
/-- V-TICK-12. -/
theorem test_ticks_V_TICK_12 : ticksOf 4294967295 4294967295 = 18446744065 := by decide
/-- V-DEI-1. -/
theorem test_deinit_V_DEI_1 :
    left (fun i => (i.inited, i.fault, i.replies)) (exec .deinit idle0) = some (false, 0, [.ok]) := by decide
/-- V-DEI-3. -/
theorem test_deinit_V_DEI_3 :
    left Instance.fault (exec .deinit (on (some (sc .draining .sending 0 [la])))) = some 0x20 := by decide
/-- V-MEM-1. -/
theorem test_setPixel_V_MEM_1 : left pixel (exec (.setPixel 0 0x12 0x34 0x56) idle0)
    = some (some [some 0x34, some 0x12, some 0x56]) := by decide
/-- V-MEM-1c: CHANNEL_ORDER = (B, R, G). -/
theorem test_setPixel_V_MEM_1c :
    left pixel (exec (.setPixel 0 0x12 0x34 0x56) { idle0 with inst := ordered .brg idle0.inst })
    = some (some [some 0x56, some 0x12, some 0x34]) := by decide
/-- V-MEM-1 and V-MEM-1c in one system: two instances, each with its own CHANNEL_ORDER (R10). -/
theorem test_setPixel_order_per_instance :
    let s : State := { idle0 with after := [ordered .brg idle0.inst] }
    [0, 1].map (fun k => left pixel (exec (.setPixel 0 0x12 0x34 0x56) (s.focus k)))
      = [some (some [some 0x34, some 0x12, some 0x56]), some (some [some 0x56, some 0x12, some 0x34])] := by decide
/-- R10, R33: INIT_FILL is the instance's own too: zero here, and what INIT leaves is defined. -/
theorem test_init_fill_per_instance :
    let s := on none
    left pixel (exec (.init scBlock) { s with inst := { s.inst with par := { s.inst.par with initFill := .zero } } })
      = some (some [some 0, some 0, some 0]) := by decide
/-- V-TX-1. -/
theorem test_transmit_V_TX_1 : left (fun i => (registers i, i.replies)) (exec .transmit idle0)
    = some (some (.sending, 0, 0, .encoding), [.ok]) := by decide
/-- V-TX-2. -/
theorem test_transmit_V_TX_2 : left (fun i => (registers i, i.replies)) (exec .transmit (refusing idle0))
    = some (some (.sending, 0, 0, .idle), [.channelBusy]) := by decide
/-- V-STP-2. -/
theorem test_stop_V_STP_2 : left (fun i => (registers i, i.log)) (exec .stop busy4)
    = some (some (.sending, 4, 0, .idle), [.sym b0, .halt 1]) := by decide
/-- V-STP-4. -/
theorem test_stop_V_STP_4 : left (fun i => (registers i, i.log)) (exec .stop (on (some (sc .draining .sending 0 [la]))))
    = some (some (.sending, 0, 0, .idle), [.sym la, .halt 1]) := by decide
/-- V-RST-2. -/
theorem test_reset_V_RST_2 : left registers (exec .reset (on (some (sc .idle .latching 24 []))))
    = some (some (.sending, 0, 0, .idle)) := by decide
/-- V-RST-4. -/
theorem test_reset_V_RST_4 : left Instance.fault (exec .reset busy4) = some 0x40 := by decide
/-- V-ENC-4: a capacity that is exactly what is left. -/
theorem test_encode_V_ENC_4 :
    left registers (exec (.encode 24) idle0) = some (some (.latching, 24, 0, .idle)) := by decide
/-- V-ENC-6: the fall-through to the latch. -/
theorem test_encode_V_ENC_6 :
    left (fun i => (registers i, i.replies)) (exec (.encode 100) (on (some (sc .idle .sending 20 []))))
    = some (some (.sending, 0, 0, .idle), [.encoded 5 .frameComplete [b0, b0, b0, b0, la]]) := by decide
/-- V-BIT-5: the end of one byte and the start of the next. -/
theorem test_bitEncode_V_BIT_5 : (bitEncode 2 (sc .idle .sending 7 [])).map (fun b => (b.count, b.done, b.symbols))
    = some (2, false, [b0, b1]) := by decide
/-- V-BIT-7 and V-BIT-8: the capacity is tested before the end of the stream. -/
theorem test_bitEncode_V_BIT_7_8 :
    [0, 5].map (fun cap => (bitEncode cap (sc .idle .sending 24 [])).map fun b => (b.count, b.done))
      = [some (0, false), some (0, true)] := by decide
/-- V-LAT-5: completion is tested before the capacity. -/
theorem test_latchEncode_V_LAT_5 :
    (latchEncode 0 { sc .idle .latching 24 [] with latchCursor := 1 }).done = true := by decide
/-- The result words of V-ENC-2 and V-ENC-5. -/
theorem test_result_words : encodeResultWord 4 .bufferFull = 0x0000000100000004 ∧
    encodeResultWord 25 .frameComplete = 0x0000000200000019 := by decide
/-- V-SYM-5 and V-SYM-7. -/
theorem test_symbol_words : Symbol.ofWord 0xFFFFFFFF = ⟨true, 32767, true, 32767⟩ ∧
    Symbol.ofWord 0x80008000 = ⟨true, 0, true, 0⟩ := by decide

/-! ## Agent steps -/

/-- V-CH-1. -/
theorem test_chanEncode_V_CH_1 :
    ((on (some (sc .encoding .sending 0 []))).agentStep .chanEncode).inst.handle
      = some (sc .encoding .sending 4 [b0, b0, b0, b0]) := by decide
/-- V-CH-4, with the capacity 4: the latch completes the frame. -/
theorem test_chanEncode_V_CH_4 :
    ((on (some (sc .encoding .latching 24 []))).agentStep .chanEncode).inst.handle
      = some (sc .draining .sending 0 [la]) := by decide
/-- Program P6: the last call of step 4 ends where the unwritten pixel begins; step 5 (V-CH-10) is rolled back. -/
theorem test_chanEncode_P6 :
    ((on (some (p6 .encoding 20 []))).agentStep .chanEncode).inst.handle = some (p6 .encoding 24 [b0, b0, b0, b0]) ∧
    (fun i : Instance => (i.handle, i.fault)) ((on (some (p6 .encoding 24 []))).agentStep .chanEncode).inst
      = (some (p6 .encoding 24 []), 0x100) := by decide
/-- V-CH-2: a full FIFO is offered no capacity, whatever was drawn. -/
theorem test_chanCap_V_CH_2 : (busy4.inst.chanCap 0 (sc .encoding .sending 4 [b0, b0, b0, b0])) = 0 := by decide
/-- V-CH-5. -/
theorem test_lineEmit_V_CH_5 :
    (fun i : Instance => (registers i, i.log)) ((on (some (sc .draining .sending 0 [la]))).agentStep .lineEmit).inst
      = (some (.sending, 0, 0, .draining), [.sym la]) := by decide
/-- V-CH-6. -/
theorem test_txDone_V_CH_6 :
    (fun i : Instance => (registers i, i.log)) ((on (some (sc .draining .sending 0 []))).agentStep .txDone).inst
      = (some (.sending, 0, 0, .idle), [.done]) := by decide
/-- V-CH-7 and V-CH-8: steps that are not enabled. -/
theorem test_ready_V_CH_7_8 : (on (some (sc .encoding .sending 0 []))).inst.ready .txDone = false ∧
    idle0.inst.ready .lineEmit = false ∧ idle0.inst.ready .chanEncode = false := by decide
/-- V-FLT-2: INIT after a fault. -/
theorem test_quiescent_V_FLT_2 : left (fun i => (i.inited, i.fault, i.replies)) (exec (.init scBlock) (quiet (on none)))
    = some (false, 0x2, [.faulted]) := by decide
/-- V-FLT-5: no Channel step of a quiescent instance. -/
theorem test_quiescent_V_FLT_5 : (quiet busy4).inst.moves = [] := by decide
/-- At power-on, with no command, no step is enabled (R252). -/
theorem test_reset_waits : step State.reset = .fault .noEnabledStep := rfl
/-- A placed word runs as the first command after reset (log 1). -/
theorem test_withFetchWord_at_reset :
    step (State.reset.withFetchWord 64 0x0400000000000000) = exec .transmit { State.reset with turns := 1 } := rfl

/-! ## Witnesses: for each statement with hypotheses, a concrete case that meets them, clause by clause -/

theorem witness_EncodeOfDecodeIsTheWord : decode ⟨0x0100000000000000, scBlock⟩ = .command (.init scBlock) ∧
    (Instr.init scBlock).opcode = .init := by decide

/-- The first and the last reserved opcode above the map, 0x00, and one word of every opcode. -/
theorem witness_DecoderFollowsTheOpcodeMap :
    (0x0000000000000000 : U64).toNat / 2 ^ 56 = 0 ∧ 8 ≤ (0x0800000000000000 : U64).toNat / 2 ^ 56 ∧
    8 ≤ (0xFF00000000000000 : U64).toNat / 2 ^ 56 ∧ (0x0100000000000000 : U64).toNat / 2 ^ 56 = 1 ∧
    (0x0200000000000000 : U64).toNat / 2 ^ 56 = 2 ∧ (0x03FFFFFFFFFFFFFF : U64).toNat / 2 ^ 56 = 3 ∧
    (0x0400000000000001 : U64).toNat / 2 ^ 56 = 4 ∧ (0x0500000000000000 : U64).toNat / 2 ^ 56 = 5 ∧
    (0x0600000000000000 : U64).toNat / 2 ^ 56 = 6 ∧ (0x07000000FFFFFFFF : U64).toNat / 2 ^ 56 = 7 := by decide

theorem witness_ResultCodesAndEncodeResultWord : 0 < 2 ^ 32 ∧ 2 ^ 32 - 1 < 2 ^ 32 := by decide

/-- The largest operands that fit and the smallest that do not, the operand counts met; an index of CLEAR. -/
theorem witness_AssemblerRefusesWhatDoesNotFit :
    (assemble 1 ⟨.setPixel, [2 ^ 32 - 1, 255, 255, 255]⟩).isSome = true ∧
    [[2 ^ 32, 0, 0, 0], [0, 2 ^ 8, 0, 0], [0, 0, 2 ^ 8, 0], [0, 0, 0, 2 ^ 8], [0, 0, 0]].map
      (fun xs => (assemble 1 ⟨.setPixel, xs⟩).isSome) = [false, false, false, false, false] ∧
    (assemble 1 ⟨.encode, [2 ^ 32 - 1]⟩).isSome = true ∧ (assemble 1 ⟨.encode, [2 ^ 32]⟩).isSome = false ∧
    (assemble 1 ⟨.init, List.replicate 9 (2 ^ 32 - 1)⟩).isSome = true ∧
    (assemble 1 ⟨.init, 2 ^ 32 :: List.replicate 8 0⟩).isSome = false ∧
    (assemble 1 ⟨.init, List.replicate 8 0⟩).isSome = false ∧
    [Mnemonic.deinit, .transmit, .stop, .reset, .clear, .abort].map (fun m => (assemble 1 ⟨m, [0]⟩).isSome)
      = [false, false, false, false, false, false] ∧
    0 < 1 := by decide

theorem witness_StepRunsTheDecodedCommand :
    let s := taking idle0 .host [encode .transmit]
    s.nextChoice = some ⟨0, .host⟩ ∧ s.instances[0]? = some s.inst ∧ s.inst.prog = [encode .transmit] ∧
    decode (encode .transmit) = .command .transmit := by decide

theorem witness_StepRunsTheChosenAgentStep :
    let s := taking busy4 .lineEmit []
    s.nextChoice = some ⟨0, .lineEmit⟩ ∧ Move.lineEmit ≠ .host ∧ s.instances[0]? = some s.inst := by decide

theorem witness_StepRunsThePlacedWord : decodeTableWord 64 0x0700000000000004 = some (.encode 4) := by decide

/-- A word that spells no command, to an instance that waits, and to one that is quiescent. -/
theorem witness_IllegalWordFaults :
    let s := taking idle0 .host [⟨0, scBlock⟩]
    let q := taking (quiet idle0) .host [⟨0, scBlock⟩]
    decode ⟨0, scBlock⟩ = .illegal .reservedOpcode ∧
    (s.nextChoice = some ⟨0, .host⟩ ∧ s.instances[0]? = some s.inst ∧ s.inst.prog = [⟨0, scBlock⟩] ∧
      s.inst.fault = 0 ∧ left Instance.fault (step s) = some 1) ∧
    q.nextChoice = some ⟨0, .host⟩ ∧ q.instances[0]? = some q.inst ∧ q.inst.prog = [⟨0, scBlock⟩] ∧
      q.inst.fault ≠ 0 ∧ left Instance.fault (step q) = some 2 := by decide

theorem witness_StepTakesAnyEnabledStep :
    (taking busy4 .chanEncode []).nextChoice = some ⟨0, .chanEncode⟩ ∧
    busy4.instances[0]? = some busy4.inst ∧ busy4.inst.ready .lineEmit = true := by decide

theorem witness_QuiescentInstanceOnlyAnswersFaulted :
    (quiet busy4).inst.fault ≠ 0 ∧ Move.chanEncode ≠ .host := by decide

theorem witness_CommandBeforeInitFaults :
    (on none).Blank ∧ (∀ cfg, Instr.stop ≠ .init cfg) ∧ (on none).inst.handle = none ∧ Move.txDone ≠ .host :=
  ⟨by decide, nofun, rfl, by decide⟩

theorem witness_SecondInitFaults : idle0.Live (sc .idle .sending 0 []) := by decide

theorem witness_CommandInFlightFaults : busy4.InFlight (sc .encoding .sending 4 [b0, b0]) ∧
    (on (some (sc .draining .sending 0 []))).InFlight (sc .draining .sending 0 []) := by decide

theorem witness_HostEncodeOfUndefRollsBack :
    let h := scUndef .idle
    (on (some h)).IdleAt h ∧ h.phase = .sending ∧ h.bitCursor ≤ 0 ∧ 0 < h.bitCursor + (4 : U32).toNat ∧ 0 < h.bits ∧
    h.pb.read (0 / 8) = none := by decide

theorem witness_ChannelEncodeOfUndefRollsBack :
    let h := scUndef .encoding
    let s := on (some h)
    s.Live h ∧ h.txState = .encoding ∧ h.phase = .sending ∧ h.bitCursor ≤ 3 ∧
    3 < h.bitCursor + s.inst.chanCap s.slot h ∧
    3 < h.bits ∧ h.pb.read (3 / 8) = none := by decide

/-- A step that sets a FAULT bit. -/
theorem witness_FaultBitsAreSticky : ∃ t j, step (taking busy4 .host [encode .reset]) = .next t ∧
    t.instances[0]? = some j ∧ j.fault = 0x40 := ⟨_, _, rfl, rfl, by decide⟩

theorem witness_TicksAreTruncated : (99 : U32).toNat * (10000000 : U32).toNat < 1000000000 := by decide

theorem witness_InitCreatesAFreshHandle : (on none).Blank ∧ constructionFault (on none).inst.par scBlock = none ∧
    (on none).channelsFull = false ∧ (on none).inst.allocOk (on none).slot = true := by decide

/-- The check that fails, from the first to the last: a refused pin, no LED and one too many, no capacity, equal high
times, no channel left, ALLOC_OK false; and none. -/
theorem witness_InitFailsAtItsFirstFailedCheck :
    let par := Params.atReset
    let legal (t : Ticks) := timingLegal t = true
    (0 : U32) ∈ ({ par with invalidPins := [0] } : Params).invalidPins ∧
    ¬ 1 ≤ (0 : U32).toNat ∧ ¬ (178956971 : U32).toNat ≤ par.maxLedCount ∧ ¬ 1 ≤ (0 : U32).toNat ∧
    ¬ legal (ticks { scBlock with bit0HighNs := 900 }) ∧ legal (ticks scBlock) ∧ scBlock.signalPin ∉ par.invalidPins ∧
    1 ≤ scBlock.ledCount.toNat ∧ scBlock.ledCount.toNat ≤ par.maxLedCount ∧ 1 ≤ scBlock.symBufCap.toNat ∧
    ¬ (({ on none with after := [idle0.inst] } : State).instances.filter Instance.inited).length < par.numChannels ∧
    ((on none).instances.filter Instance.inited).length < par.numChannels ∧
    (refusing (on none)).inst.allocOk 0 = false ∧ (on none).inst.allocOk 0 = true := by decide

theorem witness_DeinitReleasesTheHandle : (on none).Blank ∧ busy4.InFlight (sc .encoding .sending 4 [b0, b0]) ∧
    idle0.IdleAt (sc .idle .sending 0 []) := by decide

/-- The only pixel of the strip. -/
theorem witness_SetPixelWritesItsThreeBytes : idle0.IdleAt (sc .idle .sending 0 []) ∧ (sc .idle .sending 0 []).pb.wf ∧
    (0 : U32).toNat < (sc .idle .sending 0 []).cfg.ledCount.toNat := by decide

/-- The first index out of range and the last one. -/
theorem witness_SetPixelOutOfRangeChangesNothing : idle0.IdleAt (sc .idle .sending 0 []) ∧
    (sc .idle .sending 0 []).cfg.ledCount.toNat ≤ (1 : U32).toNat ∧
    (sc .idle .sending 0 []).cfg.ledCount.toNat ≤ (0xFFFFFFFF : U32).toNat := by decide

theorem witness_ClearDefinesEveryByte :
    (on (some (scUndef .idle))).IdleAt (scUndef .idle) ∧ (scUndef .idle).pb.wf := by decide

theorem witness_TransmitIsAcceptedOrBusy : (on none).Blank ∧ busy4.InFlight (sc .encoding .sending 4 [b0, b0]) ∧
    idle0.IdleAt (sc .idle .sending 0 []) ∧ idle0.inst.chanAccept 0 = true ∧
    (refusing idle0).IdleAt (sc .idle .sending 0 []) ∧ (refusing idle0).inst.chanAccept 0 = false := by decide

theorem witness_StopHaltsTheChannel : (on none).Blank ∧ idle0.IdleAt (sc .idle .sending 0 []) ∧
    busy4.InFlight (sc .encoding .sending 4 [b0, b0]) := by decide

/-- Program P4's steps 8 and 9. -/
theorem witness_TransmitAfterStopResumesTheStaleFrame : busy4.InFlight (sc .encoding .sending 4 [b0, b0]) ∧
    ∃ t u, exec .stop busy4 = .next t ∧ t.inst.chanAccept t.slot = true ∧ exec .transmit t = .next u :=
  ⟨by decide, _, _, rfl, rfl, rfl⟩

theorem witness_AbortLeavesACleanEncoder : busy4.InFlight (sc .encoding .sending 4 [b0, b0]) := by decide

/-- No capacity; one bit, the last; and the whole stream. -/
theorem witness_BitEncodeContract :
    (sc .idle .sending 24 []).bitCursor ≤ (sc .idle .sending 24 []).bits ∧
    (bitEncode 0 (sc .idle .sending 24 [])).isSome ∧ (bitEncode 1 (sc .idle .sending 23 [])).isSome ∧
    (bitEncode 24 (sc .idle .sending 0 [])).isSome := by decide

theorem witness_LatchEncodeContract : (sc .idle .latching 24 []).latchCursor = 0 ∧
    ({ sc .idle .latching 24 [] with latchCursor := 1 } : Handle).latchCursor = 1 := by decide

theorem witness_ZeroCapacityEncodeChangesNothing : idle0.IdleAt (sc .idle .sending 0 []) := by decide

/-- Every row of the table: no capacity, fewer than what is left, exactly it, more, and the latch; and P6's buffer, of
whose bytes the call reads the written ones only. -/
theorem witness_EncodeCallFollowsTheTable :
    let h := sc .idle .sending 0 []
    let l := sc .idle .latching 24 []
    let u := p6 .idle 20 []
    (h.EncoderInv ∧ h.DefinedWithin 0 ∧ h.DefinedWithin 4 ∧ h.DefinedWithin 24 ∧ h.DefinedWithin 25) ∧
    (l.EncoderInv ∧ l.DefinedWithin 1) ∧ u.EncoderInv ∧ u.DefinedWithin 4 ∧ ¬ u.DefinedWithin 5 ∧ ¬ u.Defined :=
  ⟨by decide, by decide, by decide⟩

/-- A buffer that is written, and P6's, where the next pixel is undef. -/
theorem witness_HostEncodeReturnsTheTableOutcome :
    (idle0.IdleAt (sc .idle .sending 0 []) ∧ (sc .idle .sending 0 []).EncoderInv ∧
      (sc .idle .sending 0 []).DefinedWithin (4 : U32).toNat) ∧
    (on (some (p6 .idle 20 []))).IdleAt (p6 .idle 20 []) ∧ (p6 .idle 20 []).EncoderInv ∧
      (p6 .idle 20 []).DefinedWithin (4 : U32).toNat := by decide

theorem witness_EveryEncodeCallMakesProgress : (sc .encoding .sending 23 []).EncoderInv ∧
    (sc .encoding .sending 23 []).txState ≠ .draining ∧ (encodeCall 1 (sc .encoding .sending 23 [])).isSome ∧
    1 ≤ 1 := by decide

theorem witness_ResetRewindsTheEncoder : (on none).Blank ∧ busy4.InFlight (sc .encoding .sending 4 [b0, b0]) ∧
    (on (some (sc .idle .latching 24 []))).IdleAt (sc .idle .latching 24 []) := by decide

/-- V-ENC-CH: the capacities 0, 1, 0, 30 complete a frame; 25 are enough. -/
theorem witness_ChunkingDoesNotChangeTheFrame :
    let h := sc .idle .sending 0 []
    h.EncoderInv ∧ h.Defined ∧ h.phase = .sending ∧ h.bitCursor = 0 ∧ (encodeFrame [0, 1, 0, 30] h).isSome ∧
    h.bits + 1 ≤ [1, 24].sum := by decide

/-- V-RST-3: a frame encoded by 24 and 1, then, after one more call of capacity 4, RESET and a call of 25. -/
theorem witness_ResetAndEncodeAgainRepeatsTheFrame :
    let h₀ := sc .idle .sending 0 []
    let h := sc .idle .sending 4 []
    (on (some h)).IdleAt h ∧ h.EncoderInv ∧ h.Defined ∧ h₀.EncoderInv ∧ h₀.phase = .sending ∧ h₀.bitCursor = 0 ∧
    h₀.cfg = h.cfg ∧ h₀.bit0 = h.bit0 ∧ h₀.bit1 = h.bit1 ∧ h₀.latch = h.latch ∧ h₀.pb = h.pb ∧
    (encodeFrame [24, 1] h₀).isSome ∧ (encodeFrame [25] h.rewind).isSome ∧ h.rewind.bits + 1 ≤ [25].sum := by decide

/-- A buffer that is written, and P6's, where the next pixel is undef. -/
theorem witness_ChannelEncodeFillsTheFifo :
    let h := sc .encoding .sending 4 [b0, b0]
    let u := p6 .encoding 20 []
    (busy4.Live h ∧ h.txState = .encoding ∧ h.EncoderInv ∧ h.DefinedWithin (busy4.inst.chanCap busy4.slot h)) ∧
    (on (some u)).Live u ∧ u.txState = .encoding ∧ u.EncoderInv ∧
      u.DefinedWithin ((on (some u)).inst.chanCap (on (some u)).slot u) := by decide

theorem witness_LineEmitsTheOldestSymbol : busy4.InFlight (sc .encoding .sending 4 [b0, b0]) ∧
    (sc .encoding .sending 4 [b0, b0]).fifo = b0 :: [b0] := by decide

theorem witness_TxDoneDeliversTheNotification :
    let h := sc .draining .sending 0 []
    (on (some h)).Live h ∧ h.txState = .draining ∧ h.fifo = [] := by decide

/-- One CHAN_ENCODE of the whole frame into a symbol buffer of 32, 25 LINE_EMITs and the TX_DONE. -/
theorem witness_FrameOnTheWire :
    let h := { sc .encoding .sending 0 [] with cfg := { scBlock with symBufCap := 32 } }
    let s := on (some h)
    let s := { s with inst := { s.inst with draws := { s.inst.draws with chanCap := [25] } } }
    s.Live h ∧ h.EncoderInv ∧ h.Defined ∧ h.txState = .encoding ∧ h.phase = .sending ∧ h.bitCursor = 0 ∧ h.fifo = [] ∧
    ((runAgents ([.chanEncode] ++ List.replicate 25 .lineEmit ++ [.txDone]) s).bind fun t =>
      t.inst.handle.map fun h' => h'.txState) = some .idle := by decide

theorem witness_AgentStepsConserveTheFrame :
    let h := sc .encoding .sending 4 [b0, b0]
    busy4.InFlight h ∧ h.EncoderInv ∧ busy4.inst.ready .chanEncode = true ∧ Move.chanEncode ≠ .host ∧
    (busy4.agentStep .chanEncode).inst.fault = 0 ∧ (busy4.agentStep .chanEncode).inst.handle.isSome := by decide

/-- A frame with room in the FIFO, one with a full FIFO, and P6's frame, whose next pixel is undef. -/
theorem witness_AgentStepsBringTheFrameNearerItsEnd :
    let h := sc .encoding .sending 4 [b0, b0]
    let full := sc .encoding .sending 4 [b0, b0, b0, b0]
    let u := p6 .encoding 20 []
    let meets (h : Handle) : Prop := (on (some h)).InFlight h ∧ h.Inv (on (some h)).inst.par ∧
      h.DefinedWithin ((on (some h)).inst.chanCap (on (some h)).slot h)
    (meets h ∧ (on (some h)).inst.ready .lineEmit = true ∧ Move.lineEmit ≠ .host) ∧ (meets full ∧ full.free = 0) ∧
    meets u :=
  ⟨⟨⟨by decide, by decide, by decide⟩, by decide, by decide⟩, ⟨⟨by decide, by decide, by decide⟩, by decide⟩,
    by decide, by decide, by decide⟩

/-- A run from the last Symbol of a frame on: the latch is encoded, emitted, the notification delivered, and nothing is
enabled any more. -/
def lastSymbol : Nat → State
  | 0 => taking (on (some (sc .encoding .latching 24 []))) .chanEncode []
  | 1 => taking (on (some (sc .draining .sending 0 [la]))) .lineEmit []
  | 2 =>
    let s := taking (on (some (sc .draining .sending 0 []))) .txDone []
    { s with inst := { s.inst with log := [.sym la] } }
  | _ + 3 =>
    let s := on (some (sc .idle .sending 0 []))
    { s with inst := { s.inst with log := [.sym la, .done] } }

theorem lastSymbol_isRun : IsRun lastSymbol
  | 0 => .inl ⟨_, rfl, rfl⟩
  | 1 => .inl ⟨_, rfl, rfl⟩
  | 2 => .inl ⟨_, rfl, rfl⟩
  | _ + 3 => .inr ⟨rfl, rfl⟩

theorem lastSymbol_idle {n : Nat} {h : Handle} (hh : HandleAt lastSymbol (n + 3) 0 h) : h.txState = .idle := by
  obtain ⟨i, hi, -, hh⟩ := hh
  obtain rfl : (lastSymbol (n + 3)).inst = i := Option.some.inj hi
  obtain rfl : sc .idle .sending 0 [] = h := Option.some.inj hh
  rfl

theorem lastSymbol_fair : WeaklyFair lastSymbol 0 where
  channel n := ⟨n + 3, by omega, fun ⟨_, hh, ht, _⟩ => by rw [lastSymbol_idle hh] at ht; cases ht⟩
  line n := ⟨n + 3, by omega, fun ⟨_, hh, ht, _⟩ => absurd (lastSymbol_idle hh) ht⟩
  completion n := ⟨n + 3, by omega, fun ⟨_, hh, ht, _⟩ => by rw [lastSymbol_idle hh] at ht; cases ht⟩

theorem on_inv {h : Handle} (hi : h.Inv Params.atReset) : (on (some h)).Inv := by
  intro i hm
  obtain rfl : i = (on (some h)).inst := by simpa [on, State.reset, State.instances] using hm
  exact ⟨rfl, show Params.atReset.wf by decide, fun h' hh => by cases hh; exact hi, show (0 : U32).toNat < 512 by decide, by simp [on, Instance.powerOn, wire]⟩

theorem witness_FairRunsEndTheFrame : IsRun lastSymbol ∧ WeaklyFair lastSymbol 0 ∧ (lastSymbol 0).Inv ∧
    (lastSymbol 0).instances[0]? = some (lastSymbol 0).inst ∧ (lastSymbol 0).inst.fault = 0 ∧
    (lastSymbol 0).inst.handle = some (sc .encoding .latching 24 []) ∧ (sc .encoding .latching 24 []).txState ≠ .idle :=
  ⟨lastSymbol_isRun, lastSymbol_fair, on_inv (h := sc .encoding .latching 24 []) (by decide), by decide, by decide, by decide,
    by decide⟩

theorem witness_StepKeepsTheInvariant :
    (taking busy4 .lineEmit []).Inv ∧ ∃ t, step (taking busy4 .lineEmit []) = .next t :=
  ⟨on_inv (h := sc .encoding .sending 4 [b0, b0]) (by decide), _, rfl⟩

/-- Two instances: the other one, at index 1, stays. -/
theorem witness_InstancesShareNoState :
    let s : State := { taking busy4 .lineEmit [] with after := [idle0.inst] }
    s.nextChoice = some ⟨0, .lineEmit⟩ ∧ (∃ t, step s = .next t) ∧ 1 ≠ 0 := ⟨by decide, ⟨_, rfl⟩, by decide⟩

/-- The same instance alone and beside another. -/
theorem witness_CommandsDoNotReadOtherInstances :
    let s := busy4
    let s' : State := { busy4 with after := [idle0.inst] }
    (∀ cfg, Instr.stop ≠ .init cfg) ∧ s.inst = s'.inst ∧ s.slot = s'.slot ∧
    (∃ t, exec .stop s = .next t) ∧ ∃ t, exec .stop s' = .next t := ⟨nofun, rfl, rfl, ⟨_, rfl⟩, ⟨_, rfl⟩⟩

/-- A CHAN_ENCODE (the draw 4, of the range up to 2, is read as 1: log 5), a LINE_EMIT and a STOP that change the FIFO,
the last two gaining events of LOG. -/
theorem witness_LogIsAppendOnly :
    let fifoAndLog (i : Instance) := (i.handle.map Handle.fifo, i.log)
    left fifoAndLog (step (taking busy4 .chanEncode [])) = some (some [b0, b0, b0], []) ∧
    left fifoAndLog (step (taking busy4 .lineEmit [])) = some (some [b0], [.sym b0]) ∧
    left fifoAndLog (step (taking busy4 .host [encode .stop])) = some (some [], [.sym b0, .halt 1]) ∧
    (taking busy4 .host [encode .stop]).nextChoice = some ⟨0, .host⟩ := by decide

/-- An INIT and a DEINIT that change INITED, and a step that keeps the instance initialised. -/
theorem witness_ConfigurationStaysUntilDeinit :
    let init := taking (on none) .host [encode (.init scBlock)]
    let deinit := taking idle0 .host [encode .deinit]
    (init.nextChoice = some ⟨0, .host⟩ ∧ init.inst.inited = false ∧
      left (fun i => (i.inited, i.replies)) (step init) = some (true, [.ok])) ∧
    (deinit.nextChoice = some ⟨0, .host⟩ ∧ deinit.inst.inited = true ∧
      left (fun i => (i.inited, i.replies)) (step deinit) = some (false, [.ok])) ∧
    left Instance.inited (step (taking busy4 .chanEncode [])) = some true := by decide

/-- One step along each of the four arrows. -/
theorem witness_TxStateFollowsItsArrows :
    (∃ t j h', step (taking idle0 .host [encode .transmit]) = .next t ∧ t.instances[0]? = some j ∧
      j.handle = some h' ∧ h'.txState = .encoding) ∧
    (∃ t j h', step (lastSymbol 0) = .next t ∧ t.instances[0]? = some j ∧ j.handle = some h' ∧ h'.txState = .draining) ∧
    (∃ t j h', step (lastSymbol 2) = .next t ∧ t.instances[0]? = some j ∧ j.handle = some h' ∧ h'.txState = .idle) ∧
    ∃ t j h', step (taking busy4 .host [encode .stop]) = .next t ∧ t.instances[0]? = some j ∧ j.handle = some h' ∧
      h'.txState = .idle :=
  ⟨⟨_, _, _, rfl, rfl, rfl, rfl⟩, ⟨_, _, _, rfl, rfl, rfl, rfl⟩, ⟨_, _, _, rfl, rfl, rfl, rfl⟩, ⟨_, _, _, rfl, rfl, rfl, rfl⟩⟩

theorem witness_OnlySetPixelWritesTheBuffer : ∃ t j h', (taking idle0 .host [encode (.setPixel 0 1 2 3)]).nextChoice
      = some ⟨0, .host⟩ ∧ step (taking idle0 .host [encode (.setPixel 0 1 2 3)]) = .next t ∧
    t.instances[0]? = some j ∧ j.handle = some h' ∧ h'.pb ≠ (sc .idle .sending 0 []).pb :=
  ⟨_, _, _, by decide, rfl, rfl, rfl, by decide⟩

/-- A CHAN_ENCODE, an ENCODE and a RESET that move the encoder. -/
theorem witness_OnlyEncodeAndResetMoveTheEncoder :
    (∃ t j h', step (taking busy4 .chanEncode []) = .next t ∧ t.instances[0]? = some j ∧ j.handle = some h' ∧
      h'.bitCursor ≠ 4) ∧
    (∃ t j h', step (taking idle0 .host [encode (.encode 4)]) = .next t ∧ t.instances[0]? = some j ∧
      j.handle = some h' ∧ h'.bitCursor ≠ 0) ∧
    ∃ t j h', step (taking (on (some (sc .idle .latching 24 []))) .host [encode .reset]) = .next t ∧
      t.instances[0]? = some j ∧ j.handle = some h' ∧ h'.bitCursor ≠ 24 :=
  ⟨⟨_, _, _, rfl, rfl, rfl, by decide⟩, ⟨_, _, _, rfl, rfl, rfl, by decide⟩, ⟨_, _, _, rfl, rfl, rfl, by decide⟩⟩

end Sys2Proof.Tests
end

section
/-! SUPPORT. An Encode call against the table of 42_composite_encoder.md R149, and the encoder's R29 under it. -/

namespace Sys2Proof.Machine

open Sys2Proof

variable {h : Handle} {cap n : Nat} {syms : List Symbol}

/-! ## The call is its row of the table -/

/-- What a BitEncode call of nonzero capacity gives where it raises no fault (41_sub_encoders.md R120 to R125). -/
theorem bitEncode_eq_of_some {b : SubResult} (hc : cap ≠ 0) (he : bitEncode cap h = some b) :
    b = { count := min cap (h.bits - h.bitCursor)
          done := decide (h.bitCursor + min cap (h.bits - h.bitCursor) = h.bits)
          symbols := h.stream h.bitCursor (min cap (h.bits - h.bitCursor))
          handle := { h with bitCursor := h.bitCursor + min cap (h.bits - h.bitCursor) } } := by
  rw [bitEncode, if_neg hc] at he
  dsimp only at he
  split at he
  · cases he
  · rename_i syms hs
    rw [← Handle.emitBits_some hs]
    exact (Option.some.inj he).symm

/-- The latch Symbol is emitted where the call has room for it (42_composite_encoder.md R142, R146). -/
theorem latchStep_of_lt (hl : h.latchCursor = 0) (hn : n < cap) :
    latchStep cap n syms h = ⟨n + 1, .frameComplete, syms ++ [h.latch], h.rewind⟩ := by
  have hc : cap - n ≠ 0 := by omega
  simp [latchStep, latchEncode, hl, hc, Handle.rewind]

/-- A call that the bits have filled leaves the latch to the next one (42_composite_encoder.md R143). -/
theorem latchStep_of_le (hl : h.latchCursor = 0) (hn : cap ≤ n) :
    latchStep cap n syms h = ⟨n, .bufferFull, syms, h⟩ := by
  have hc : cap - n = 0 := by omega
  simp [latchStep, latchEncode, hl, hc]

/-- A call that raises no fault has the table's outcome, whatever the buffer holds beyond the bytes it read. -/
theorem encodeCall_eq_encodeTable {e : Encoded} (hi : h.EncoderInv) (he : encodeCall cap h = some e) :
    e = encodeTable cap h := by
  obtain ⟨hle, hfull, hlatch, -, -, -⟩ := hi
  by_cases hc : cap = 0
  · simpa [encodeCall, encodeTable, hc, eq_comm] using he
  rcases hp : h.phase with _ | _
  · simp only [encodeCall, if_neg hc, hp] at he
    rcases hb : bitEncode cap h with _ | b
    · simp [hb] at he
    · obtain rfl := bitEncode_eq_of_some hc hb
      simp only [hb, decide_eq_true_eq] at he
      simp only [encodeTable, if_neg hc, hp]
      rcases Nat.lt_trichotomy cap (h.bits - h.bitCursor) with hlt | heq | hgt
      · rw [Nat.min_eq_left hlt.le, if_neg (by omega)] at he
        simpa [hlt, hp] using (Option.some.inj he).symm
      · rw [Nat.min_eq_right heq.ge, if_pos (by omega), latchStep_of_le ?noLatchYet heq.le] at he
        case noLatchYet => exact hlatch
        rw [if_neg heq.not_lt, if_pos heq, ← Option.some.inj he, Nat.add_sub_cancel' hle]
      · rw [Nat.min_eq_right hgt.le, if_pos (by omega), latchStep_of_lt ?noLatchYet hgt] at he
        case noLatchYet => exact hlatch
        rw [if_neg hgt.not_gt, if_neg hgt.ne', ← Option.some.inj he]
        rfl
  · simp only [encodeCall, if_neg hc, hp, latchStep_of_lt hlatch (Nat.pos_of_ne_zero hc)] at he
    simpa [encodeTable, hc, hp, eq_comm] using he

/-! ## R29 under the encoder's operations -/

theorem Handle.EncoderInv.bits_pos (hi : h.EncoderInv) : 0 < h.bits := by
  obtain ⟨-, -, -, -, -, hled⟩ := hi
  simp only [Handle.bits, Handle.len]
  omega

/-- An encoder at the start of a frame has R29, whatever TX_STATE is (10_state.md R29). -/
theorem Handle.EncoderInv.rewind (hi : h.EncoderInv) : h.rewind.EncoderInv :=
  have ⟨_, _, _, _, _, hled⟩ := hi
  ⟨Nat.zero_le _, nofun, rfl, fun _ => ⟨rfl, rfl⟩, fun _ => hi.bits_pos, hled⟩

/-- Each row of the table keeps R29 (10_state.md R29). No Encode call is made while Draining. -/
theorem encodeTable_encoderInv (hi : h.EncoderInv) (hd : h.txState ≠ .draining) :
    (encodeTable cap h).handle.EncoderInv := by
  obtain ⟨hle, hfull, hlatch, -, hsend, hled⟩ := id hi
  simp only [encodeTable]
  split
  · exact hi
  · split
    · exact hi.rewind
    · rename_i hp
      split
      · rename_i hlt
        have hin : h.bitCursor + cap < h.bits := by omega
        exact ⟨hin.le, by simp [hp], hlatch, fun h => absurd h hd, fun _ => hin, hled⟩
      · split
        · exact ⟨le_rfl, fun _ => rfl, hlatch, fun h => absurd h hd, nofun, hled⟩
        · exact hi.rewind

end Sys2Proof.Machine
end

section
/-! SUPPORT. What a step makes of the instance at an index: its FAULT, its LOG, its handle. -/

namespace Sys2Proof.Machine

open Sys2Proof

variable {s t : State} {k : Nat} {m : Move} {i j : Instance} {h h' : Handle}

/-! ## The effect at an index -/

/-- The chosen instance before and after a step. -/
theorem step_effect_chosen {c : Choice} (hc : s.nextChoice = some c) (hs : step s = .next t)
    (hi : s.instances[c.slot]? = some i) (hj : t.instances[c.slot]? = some j) : StepEffect c.slot c.move i j := by
  obtain ⟨c', i', j', hc', hi', -, -, hj', -, he⟩ := step_effect hs
  obtain rfl : c = c' := Option.some.inj (hc.symm.trans hc')
  obtain rfl : i = i' := Option.some.inj (hi.symm.trans hi')
  obtain rfl : j = j' := Option.some.inj (hj.symm.trans hj')
  exact he

/-- Any instance before and after a step: it is as it was, or it is the chosen one. -/
theorem step_effect_at (hs : step s = .next t) (hi : s.instances[k]? = some i) (hj : t.instances[k]? = some j) :
    j = i ∨ ∃ m, s.nextChoice = some ⟨k, m⟩ ∧ StepEffect k m i j := by
  obtain ⟨c, i', j', hc, hi', -, rfl, -, -, -⟩ := step_effect hs
  by_cases hk : k = c.slot
  · subst hk
    exact .inr ⟨c.move, hc, step_effect_chosen hc hs hi hj⟩
  · rw [turn_setInst_other hi' hk, hi] at hj
    exact .inl (Option.some.inj hj).symm

/-! ## FAULT and LOG -/

/-- A step sets one bit of a clear FAULT or leaves it (60_exceptions.md R232). -/
theorem StepEffect.fault_cases (he : StepEffect k m i j) :
    j.fault = i.fault ∨ i.fault = 0 ∧ ∃ f : FaultCode, j.fault = f.mask := by
  cases he with
  | host p rest c hm was decoded prog effect =>
    cases effect with
    | kept handle log fault => exact fault
    | _ => exact .inl ‹_›
  | undef => exact .inr ⟨‹_›, _, ‹_›⟩
  | _ => exact .inl ‹_›

/-- A step appends to LOG, and puts only queued Symbols on the wire (44_channel.md R214, 43_strip_handle.md R195). -/
theorem StepEffect.log_appends (he : StepEffect k m i j) :
    ∃ gained, j.log = i.log ++ gained ∧ ∀ sym ∈ wire gained, ∃ h ∈ i.handle, sym ∈ h.fifo := by
  have same (hl : j.log = i.log) :
      ∃ gained, j.log = i.log ++ gained ∧ ∀ sym ∈ wire gained, ∃ h ∈ i.handle, sym ∈ h.fifo :=
    ⟨[], by simpa using hl, nofun⟩
  cases he with
  | host p rest c hm was decoded prog effect =>
    cases effect with
    | stop h q cmd was active bound handle log =>
      refine ⟨(h.fifo.take q).map .sym ++ [.halt q], by simpa using log, fun sym hsym => ⟨h, was, ?_⟩⟩
      rw [wire_append, wire_sym, wire_halt, List.append_nil] at hsym
      exact List.mem_of_mem_take hsym
    | _ => exact same ‹_›
  | lineEmit h sym rest hm was alive tx queue prog handle log =>
    refine ⟨[.sym sym], log, fun sym' hsym => ⟨h, was, ?_⟩⟩
    obtain rfl : sym' = sym := by simpa [wire] using hsym
    simp [queue]
  | txDone h hm was alive tx queue prog handle log => exact ⟨[.done], log, nofun⟩
  | _ => exact same ‹_›

/-! ## The handle -/

/-- The next word of the instance's program decodes to the command. -/
def Instance.Issues (i : Instance) (a : Instr) : Prop := ∃ p rest, i.prog = p :: rest ∧ decode p = .command a

/-- All that the step `m` of the instance at index `k`, which is initialised before and after it, can make of its
handle `h`. -/
inductive HandleEffect (k : Nat) (m : Move) (i j : Instance) (h : Handle) : Handle → Prop where
  | kept : HandleEffect k m i j h h
  | setPixel (index : U32) (r g b : Byte) (hm : m = .host) (issued : i.Issues (.setPixel index r g b))
      (idle : h.txState = .idle) (inRange : index.toNat < h.cfg.ledCount.toNat) :
      HandleEffect k m i j h (h.writePixel i.par.channelOrder index.toNat r g b)
  | transmit (hm : m = .host) (issued : i.Issues .transmit) (idle : h.txState = .idle)
      (replies : j.replies = i.replies ++ [.ok]) : HandleEffect k m i j h { h with txState := .encoding }
  | stop (q : Nat) (hm : m = .host) (issued : i.Issues .stop) (active : h.txState ≠ .idle)
      (bound : q ≤ h.fifo.length) (log : j.log = i.log ++ (h.fifo.take q).map Event.sym ++ [.halt q])
      (replies : j.replies = i.replies ++ [.ok]) : HandleEffect k m i j h { h with fifo := [], txState := .idle }
  | reset (hm : m = .host) (issued : i.Issues .reset) (idle : h.txState = .idle) : HandleEffect k m i j h h.rewind
  | encode (cap : U32) (e : Encoded) (hm : m = .host) (issued : i.Issues (.encode cap)) (idle : h.txState = .idle)
      (call : encodeCall cap.toNat h = some e) : HandleEffect k m i j h e.handle
  | chanEncode (e : Encoded) (hm : m = .chanEncode) (tx : h.txState = .encoding)
      (call : encodeCall (i.chanCap k h) h = some e) :
      HandleEffect k m i j h { e.handle with
        fifo := h.fifo ++ e.symbols, txState := h.txState.afterEncode e.status }
  | lineEmit (sym : Symbol) (rest : List Symbol) (hm : m = .lineEmit) (tx : h.txState ≠ .idle)
      (queue : h.fifo = sym :: rest) (log : j.log = i.log ++ [.sym sym]) :
      HandleEffect k m i j h { h with fifo := rest }
  | txDone (hm : m = .txDone) (tx : h.txState = .draining) (queue : h.fifo = []) (log : j.log = i.log ++ [.done]) :
      HandleEffect k m i j h { h with txState := .idle }

/-- An effect on the handle found is one on the handle an instance has. -/
theorem HandleEffect.transport {o o' : Option Handle} {g g' : Handle} (ho : o = some h) (ho' : o' = some h')
    (hg : o = some g) (hg' : o' = some g') (he : HandleEffect k m i j g g') : HandleEffect k m i j h h' := by
  obtain rfl := Option.some.inj (hg.symm.trans ho)
  obtain rfl := Option.some.inj (hg'.symm.trans ho')
  exact he

/-- A command's effect on the handle of an instance that stays initialised; the command is gone from its program. -/
theorem CommandEffect.handleEffect {c : Option Instr} {rest : List CommandWords}
    (he : CommandEffect c { i with prog := rest } j) (hm : m = .host) (issued : ∀ a, c = some a → i.Issues a)
    (hi : i.handle = some h) (hj : j.handle = some h') : HandleEffect k m i j h h' := by
  cases he with
  | kept handle => exact .transport hi hj hi (handle.trans hi) .kept
  | init cfg cmd was => exact nomatch hi.symm.trans was
  | deinit g cmd was idle handle => exact nomatch hj.symm.trans handle
  | setPixel g index r g' b cmd was idle inRange handle =>
    exact .transport hi hj was handle (.setPixel index r g' b hm (issued _ cmd) idle inRange)
  | transmit g cmd was idle handle log alive fault replies =>
    exact .transport hi hj was handle (.transmit hm (issued _ cmd) idle replies)
  | stop g q cmd was active bound handle log alive fault replies =>
    exact .transport hi hj was handle (.stop q hm (issued _ cmd) active bound log replies)
  | reset g cmd was idle handle => exact .transport hi hj was handle (.reset hm (issued _ cmd) idle)
  | encode g cap e cmd was idle call handle =>
    exact .transport hi hj was handle (.encode cap e hm (issued _ cmd) idle call)

/-- A step's effect on the handle of an instance that stays initialised. -/
theorem StepEffect.handleEffect (he : StepEffect k m i j) (hi : i.handle = some h) (hj : j.handle = some h') :
    HandleEffect k m i j h h' := by
  cases he with
  | host p rest c hm hprog decoded prog effect =>
    exact effect.handleEffect hm (fun a ha => ⟨p, rest, hprog, (decoded a).2 ha⟩) hi hj
  | undef g hm was alive tx call prog handle => exact .transport hi hj hi (handle.trans hi) .kept
  | chanEncode g e hm was alive tx call prog handle => exact .transport hi hj was handle (.chanEncode e hm tx call)
  | lineEmit g sym rest hm was alive tx queue prog handle log =>
    exact .transport hi hj was handle (.lineEmit sym rest hm tx queue log)
  | txDone g hm was alive tx queue prog handle log => exact .transport hi hj was handle (.txDone hm tx queue log)

/-- INITED changes only by an INIT or a DEINIT of the Host that is answered Ok (10_state.md R22). -/
theorem StepEffect.of_inited_changed (he : StepEffect k m i j) (hne : i.handle.isSome ≠ j.handle.isSome) :
    m = .host ∧ j.replies = i.replies ++ [.ok] ∧
      ((i.handle = none ∧ ∃ cfg, i.Issues (.init cfg) ∧ constructionFault i.par cfg = none ∧
          j.handle = some (Handle.fresh i.par cfg)) ∨
        (j.handle = none ∧ i.Issues .deinit)) := by
  have stays {g g' : Handle} (hi : i.handle = some g) (hj : j.handle = some g') : False := hne (by rw [hi, hj]; rfl)
  cases he with
  | host p rest c hm hprog decoded prog effect =>
    cases effect with
    | kept handle => simp [handle] at hne
    | init cfg cmd was legal handle log alive fault replies =>
      exact ⟨hm, replies, .inl ⟨was, cfg, ⟨p, rest, hprog, (decoded _).2 cmd⟩, legal, handle⟩⟩
    | deinit h cmd was idle handle log alive fault replies =>
      exact ⟨hm, replies, .inr ⟨handle, p, rest, hprog, (decoded _).2 cmd⟩⟩
    | _ => exact (stays ‹_› ‹_›).elim
  | undef h hm was alive tx call prog handle => simp [handle] at hne
  | _ => exact (stays ‹_› ‹_›).elim

end Sys2Proof.Machine
end

section
/-! SUPPORT. The invariant of a handle under each of its operations, and of an instance under a step. -/

namespace Sys2Proof.Machine

open Sys2Proof

variable {par : Params} {h h' : Handle} {cap : Nat}

/-! ## The templates of a legal configuration -/

/-- A tick count in the range of 40_symbols.md R104 is no empty half of a Symbol. -/
theorem duration_ne_zero {n : Nat} (hn : 1 ≤ n ∧ n ≤ 32767) : BitVec.ofNat 15 n ≠ 0 := by
  intro h0
  have hmod : n % 2 ^ 15 = 0 := by simpa using congrArg BitVec.toNat h0
  omega

/-- The templates of a legal configuration are no empty Symbols (40_symbols.md R104, 30_encoding.md R72). -/
theorem templates_lasting {cfg : ConfigBlock} (hc : constructionFault par cfg = none) :
    (bit0Template (ticks cfg)).Lasting ∧ (bit1Template (ticks cfg)).Lasting ∧
      (latchTemplate (ticks cfg)).Lasting := by
  obtain ⟨-, -, -, ht⟩ := constructionFault_none.1 hc
  obtain ⟨h0h, h0l, h1h, h1l, hl, -⟩ := timingLegal_iff.1 ht
  exact ⟨⟨duration_ne_zero h0h, duration_ne_zero h0l⟩, ⟨duration_ne_zero h1h, duration_ne_zero h1l⟩,
    duration_ne_zero hl, duration_ne_zero hl⟩

/-- No empty Symbol is ever queued (30_encoding.md R72). -/
theorem Handle.Inv.fifo_lasting (hi : h.Inv par) {s : Symbol} (hs : s ∈ h.fifo) : s.Lasting := by
  obtain ⟨hcfg, hb0, hb1, hl, -, -, -, htmpl, -⟩ := hi
  obtain ⟨l0, l1, ll⟩ := templates_lasting hcfg
  rcases htmpl s hs with rfl | rfl | rfl
  · rwa [hb0]
  · rwa [hb1]
  · rwa [hl]

/-! ## The pixel buffer -/

theorem Memory.mem_write {m : Memory} {a : Nat} {v : Byte} {c : Host.Cell} (hc : c ∈ (m.write a v).cells) :
    c ∈ m.cells ∨ c.1 = a :=
  (mem_cellSet hc).imp_right And.left

/-- A pixel's cells are those of its three bytes (20_memory.md R53). -/
theorem Handle.mem_writePixel {order : ChannelOrder} {index : Nat} {r g b : Byte} {c : Host.Cell}
    (hc : c ∈ (h.writePixel order index r g b).pb.cells) : c ∈ h.pb.cells ∨ c.1 < 3 * index + 3 := by
  rcases Memory.mem_write hc with hc | hc
  · rcases Memory.mem_write hc with hc | hc
    · rcases Memory.mem_write hc with hc | hc
      · exact .inl hc
      · exact .inr (by omega)
    · exact .inr (by omega)
  · exact .inr (by omega)

/-- A pixel below LED_COUNT is written within the buffer's L bytes (43_strip_handle.md R182). -/
theorem Handle.Inv.writePixel (hi : h.Inv par) {index : Nat} (hlt : index < h.cfg.ledCount.toNat)
    (order : ChannelOrder) (r g b : Byte) : (h.writePixel order index r g b).Inv par := by
  obtain ⟨hcfg, hb0, hb1, hl, henc, hlen, hidle, htmpl, hfill, hwf, hcells⟩ := hi
  have hwf' := h.writePixel_wf order index r g b hwf
  refine ⟨hcfg, hb0, hb1, hl, henc, hlen, hidle, htmpl, hfill, hwf', fun c hc => ?_⟩
  show c.1 < 3 * h.cfg.ledCount.toNat
  rcases Handle.mem_writePixel hc with hc | hc
  · exact hcells c hc
  · omega

/-! ## TX_STATE, the symbol buffer and the encoder -/

/-- A new TX_STATE and symbol buffer keep the invariant where what R29 (d), R34 and R212 ask of them holds. -/
theorem Handle.Inv.setChannel (hi : h.Inv par) {tx : TxState} {fifo : List Symbol}
    (hlen : fifo.length ≤ h.cfg.symBufCap.toNat) (hidle : tx = .idle → fifo = [])
    (htmpl : ∀ s ∈ fifo, s = h.bit0 ∨ s = h.bit1 ∨ s = h.latch)
    (hdrain : tx = .draining → h.phase = .sending ∧ h.bitCursor = 0) :
    Handle.Inv par { h with fifo := fifo, txState := tx } := by
  obtain ⟨hcfg, hb0, hb1, hl, ⟨hle, hfull, hlatch, -, hsend, hled⟩, -, -, -, hpb⟩ := hi
  exact ⟨hcfg, hb0, hb1, hl, ⟨hle, hfull, hlatch, hdrain, hsend, hled⟩, hlen, hidle, htmpl, hpb⟩

/-- What writes PHASE and the cursors only keeps the invariant if it keeps R29. -/
theorem Handle.Inv.of_sameBut (hi : h.Inv par) (hs : h.SameBut h') (henc : h'.EncoderInv) : h'.Inv par := by
  obtain ⟨hcfg, hb0, hb1, hl, -, hfifo⟩ := hi
  refine ⟨?_, ?_, ?_, ?_, henc, ?_⟩
  · rwa [hs.cfg]
  · rwa [hs.cfg, hs.bit0]
  · rwa [hs.cfg, hs.bit1]
  · rwa [hs.cfg, hs.latch]
  · simpa only [Handle.len, hs.cfg, hs.bit0, hs.bit1, hs.latch, hs.txState, hs.pb, hs.fifo] using hfifo

/-- An Encode call keeps the invariant (42_composite_encoder.md R140); none is made while Draining. -/
theorem Handle.Inv.of_encodeCall {e : Encoded} (hi : h.Inv par) (hd : h.txState ≠ .draining)
    (he : encodeCall cap h = some e) : e.handle.Inv par := by
  obtain ⟨-, -, -, -, henc, -⟩ := id hi
  refine hi.of_sameBut (encodeCall_sameBut he) ?_
  rw [encodeCall_eq_encodeTable henc he]
  exact encodeTable_encoderInv henc hd

/-- CHAN_ENCODE within the free space keeps the invariant (44_channel.md R211, R212). -/
theorem Handle.Inv.of_chanEncode {e : Encoded} (hi : h.Inv par) (ht : h.txState = .encoding) (hcap : cap ≤ h.free)
    (he : encodeCall cap h = some e) :
    Handle.Inv par { e.handle with fifo := h.fifo ++ e.symbols, txState := h.txState.afterEncode e.status } := by
  have hs := encodeCall_sameBut he
  obtain ⟨hcount, hle⟩ := encodeCall_count he
  obtain ⟨-, -, -, -, henc, hlen, -, htmpl, -⟩ := id hi
  have htab := encodeCall_eq_encodeTable henc he
  refine (hi.of_encodeCall (by simp [ht]) he).setChannel ?_ ?_ ?_ ?_
  · rw [hs.cfg, List.length_append]
    simp only [Handle.free] at hcap
    omega
  · simp only [ht, TxState.afterEncode]
    split <;> nofun
  · rw [hs.bit0, hs.bit1, hs.latch]
    intro s hmem
    rcases List.mem_append.1 hmem with hmem | hmem
    · exact htmpl s hmem
    · exact encodeTable_templates (htab ▸ hmem)
  · intro hdrain
    have hdone : e.status = .frameComplete := by
      by_contra hne
      simp [ht, TxState.afterEncode, hne] at hdrain
    obtain ⟨-, hrew⟩ := encodeTable_complete (htab ▸ hdone)
    rw [htab, hrew]
    exact ⟨rfl, rfl⟩

/-! ## A step -/

variable {k : Nat} {m : Move} {i j : Instance}

/-- Whatever a step makes of the handle of an instance that stays initialised, the invariant is kept. -/
theorem HandleEffect.inv (he : HandleEffect k m i j h h') (hi : h.Inv par) : h'.Inv par := by
  obtain ⟨-, -, -, -, henc, hlen, -, htmpl, -⟩ := id hi
  obtain ⟨-, -, -, hdrain, -⟩ := id henc
  cases he with
  | kept => exact hi
  | setPixel index r g b hm issued idle inRange => exact hi.writePixel inRange _ r g b
  | transmit hm issued idle => exact hi.setChannel hlen nofun htmpl nofun
  | stop => exact hi.setChannel (Nat.zero_le _) (fun _ => rfl) nofun nofun
  | reset => exact hi.of_sameBut ⟨rfl, rfl, rfl, rfl, rfl, rfl, rfl⟩ henc.rewind
  | encode cap e hm issued idle call => exact hi.of_encodeCall (by simp [idle]) call
  | chanEncode e hm tx call => exact hi.of_chanEncode tx (i.chanCap_le k h) call
  | lineEmit sym rest hm tx queue =>
    rw [queue] at hlen htmpl
    exact hi.setChannel (Nat.le_of_succ_le hlen) (fun ht => absurd ht tx) (fun s hs => htmpl s (.tail _ hs)) hdrain
  | txDone hm tx queue => exact hi.setChannel hlen (fun _ => queue) htmpl nofun

/-- The handle after a step has its invariant, the instance newly initialised or not. -/
theorem StepEffect.handle_inv (he : StepEffect k m i j) (hi : ∀ h ∈ i.handle, h.Inv i.par) :
    ∀ h' ∈ j.handle, h'.Inv i.par := by
  intro h' hj
  rcases hh : i.handle with _ | h
  · obtain ⟨-, -, ⟨-, cfg, -, legal, hfresh⟩ | ⟨hnone, -⟩⟩ :=
      he.of_inited_changed (by simp [hh, Option.mem_def.1 hj])
    · obtain rfl : Handle.fresh i.par cfg = h' := Option.some.inj (hfresh.symm.trans hj)
      exact Handle.fresh_inv legal
    · simp [hnone] at hj
  · exact (he.handleEffect hh hj).inv (hi h hh)

/-- Every fault has one of the bits 0 to 8 (60_exceptions.md R233). -/
theorem FaultCode.mask_lt (f : FaultCode) : f.mask.toNat < 512 := by
  cases f <;> decide

/-- A step of an instance keeps its invariant. -/
theorem StepEffect.inv (he : StepEffect k m i j) (hpar : j.par = i.par) (hi : i.Inv) : j.Inv := by
  obtain ⟨hwf, hh, hf, hw⟩ := hi
  refine ⟨hpar ▸ hwf, hpar ▸ he.handle_inv hh, ?_, ?_⟩
  · rcases he.fault_cases with hj | ⟨-, f, hj⟩
    · rwa [hj]
    · rw [hj]
      exact f.mask_lt
  · obtain ⟨gained, hlog, hgained⟩ := he.log_appends
    intro sym hsym
    rw [hlog, wire_append] at hsym
    rcases List.mem_append.1 hsym with hsym | hsym
    · exact hw sym hsym
    · obtain ⟨h, hin, hq⟩ := hgained sym hsym
      exact (hh h hin).fifo_lasting hq

end Sys2Proof.Machine
end

section
/-! PROOFS. What every step keeps of the state (10_state.md). -/

namespace Sys2Proof.Machine

open Sys2Proof

/-- Settles O53: the chosen instance keeps its invariant, whatever its step does, and the others are as they were. -/
theorem stepKeepsTheInvariant : Obligations.StepKeepsTheInvariant := by
  intro s t hinv hs
  obtain ⟨c, i, j, -, hi, -, rfl, -, hpar, he⟩ := step_effect hs
  intro x hx
  rw [State.setInst_instances_length, State.turn_instances]
  rcases State.mem_setInst_instances hx with rfl | hx
  · obtain ⟨hnum, hi⟩ := hinv i (List.mem_of_getElem? hi)
    exact ⟨by rw [hpar, hnum], he.inv hpar hi⟩
  · exact hinv x (by simpa using hx)

/-- Settles O22: a step leaves FAULT or sets a bit of one that is clear. -/
theorem faultBitsAreSticky : Obligations.FaultBitsAreSticky := by
  intro s t k i j hs hi hj
  rcases step_effect_at hs hi hj with rfl | ⟨m, -, he⟩
  · exact BitVec.and_self
  · rcases he.fault_cases with hf | ⟨hf, -⟩
    · rw [hf, BitVec.and_self]
    · rw [hf]
      exact BitVec.zero_and

/-- Settles O56: LOG by what a step appends to it, the FIFO by the cases of a step on the handle. -/
theorem logIsAppendOnly : Obligations.LogIsAppendOnly := by
  refine ⟨fun s t k i j hs hi hj => ?_, fun s t k i j h h' hs hi hj hh hh' hne => ?_⟩
  · rcases step_effect_at hs hi hj with rfl | ⟨m, -, he⟩
    · exact ⟨[], by simp⟩
    · obtain ⟨gained, hlog, -⟩ := he.log_appends
      exact ⟨gained, hlog⟩
  · rcases step_effect_at hs hi hj with rfl | ⟨m, hc, he⟩
    · obtain rfl := Option.some.inj (hh.symm.trans hh')
      exact absurd rfl hne
    · cases he.handleEffect hh hh' with
      | stop q hm issued => subst hm; exact .inr (.inr ⟨hc, rfl, issued⟩)
      | encode cap e hm issued idle call => exact absurd (encodeCall_sameBut call).fifo hne
      | chanEncode e hm tx call =>
        obtain ⟨hcount, hcap⟩ := encodeCall_count call
        subst hm
        exact .inl ⟨hc, e.symbols, rfl, hcount ▸ hcap, i.chanCap_le k h⟩
      | lineEmit sym rest hm tx queue log => subst hm; exact .inr (.inl ⟨hc, sym, queue, log⟩)
      | _ => exact absurd rfl hne

/-- Settles O57: INITED by what changes it, the registers by the cases of a step on the handle. -/
theorem configurationStaysUntilDeinit : Obligations.ConfigurationStaysUntilDeinit := by
  refine ⟨fun s t k i j hs hi hj hne => ?_, fun s t k i j h h' hs hi hj hh hh' => ?_⟩
  · rcases step_effect_at hs hi hj with rfl | ⟨m, hc, he⟩
    · exact absurd rfl hne
    · obtain ⟨rfl, hreply, ⟨hnone, cfg, ⟨p, rest, hp, hd⟩, -⟩ | ⟨hnone, p, rest, hp, hd⟩⟩ :=
        he.of_inited_changed hne
      · exact ⟨hc, hreply, p, rest, hp, .inl ⟨hnone, cfg, hd⟩⟩
      · exact ⟨hc, hreply, p, rest, hp, .inr ⟨hnone, hd⟩⟩
  · rcases step_effect_at hs hi hj with rfl | ⟨m, -, he⟩
    · obtain rfl := Option.some.inj (hh.symm.trans hh')
      exact ⟨rfl, rfl, rfl, rfl⟩
    · cases he.handleEffect hh hh' with
      | encode _ _ _ _ _ call | chanEncode _ _ _ call =>
        have hsame := encodeCall_sameBut call
        exact ⟨hsame.cfg, hsame.bit0, hsame.bit1, hsame.latch⟩
      | _ => exact ⟨rfl, rfl, rfl, rfl⟩

/-- Settles O58: by the cases of a step on the handle, four of which write TX_STATE. -/
theorem txStateFollowsItsArrows : Obligations.TxStateFollowsItsArrows := by
  intro s t c i j h h' hc hs hi hj hh hh' hne
  cases (step_effect_chosen hc hs hi hj).handleEffect hh hh' with
  | transmit hm issued idle replies => exact .inl ⟨idle, rfl, hm, replies, issued⟩
  | stop q hm issued active bound log replies =>
    exact .inr (.inr (.inr ⟨active, rfl, hm, replies, ⟨q, bound, log⟩, issued⟩))
  | encode cap e hm issued idle call => exact absurd (encodeCall_sameBut call).txState hne
  | chanEncode e hm tx call =>
    have hdone : e.status = .frameComplete := by
      by_contra hmore
      exact hne (if_neg hmore)
    exact .inr (.inl ⟨tx, if_pos hdone, hm, e, call, hdone⟩)
  | txDone hm tx queue log => exact .inr (.inr (.inl ⟨tx, rfl, hm, log⟩))
  | _ => exact absurd rfl hne

/-- Settles O59: by the cases of a step on the handle, of which SET_PIXEL alone writes PB. -/
theorem onlySetPixelWritesTheBuffer : Obligations.OnlySetPixelWritesTheBuffer := by
  intro s t c i j h h' hc hs hi hj hh hh' hne
  cases (step_effect_chosen hc hs hi hj).handleEffect hh hh' with
  | setPixel index r g b hm issued idle inRange =>
    obtain ⟨p, rest, hp, hd⟩ := issued
    exact ⟨hm, idle, p, rest, index, r, g, b, hp, hd, inRange⟩
  | encode _ _ _ _ _ call | chanEncode _ _ _ call => exact absurd (encodeCall_sameBut call).pb hne
  | _ => exact absurd rfl hne

end Sys2Proof.Machine
end

section
/-! PROOFS. The pixel buffer and the frame (20_memory.md). -/

namespace Sys2Proof.Machine

open Sys2Proof

variable {s : State} {h : Handle} {cap : Nat} {e : Encoded}

/-! ## SET_PIXEL -/

/-- SET_PIXEL in range on an idle instance writes the pixel and answers Ok (43_strip_handle.md R181). -/
theorem exec_setPixel_of_lt {index : U32} (hs : s.IdleAt h) (hlt : index.toNat < h.cfg.ledCount.toNat)
    (r g b : Byte) :
    exec (.setPixel index r g b) s = .next
      (s.ended (some (h.writePixel s.inst.par.channelOrder index.toNat r g b)) s.inst.draws .ok) := by
  show execSetPixel index r g b s = _
  rw [execSetPixel, State.ifIdle_idleAt hs, if_pos hlt]
  rfl

/-- Settles O28: the command writes the pixel, the pixel reads as `arrange` orders it, every other byte as before. -/
theorem setPixelWritesItsThreeBytes : Obligations.SetPixelWritesItsThreeBytes := by
  intro s h index r g b hs hw hlt
  refine ⟨(h.writePixel s.inst.par.channelOrder index.toNat r g b).pb, exec_setPixel_of_lt hs hlt r g b, ?_,
    fun a ha => h.writePixel_read_other _ _ r g b a (by omega)⟩
  obtain ⟨h0, h1, h2⟩ := h.writePixel_read s.inst.par.channelOrder index.toNat r g b hw
  rw [h0, h1, h2]
  cases s.inst.par.channelOrder <;> rfl

/-! ## The frame in flight -/

/-- A CHAN_ENCODE moves Symbols from what is left to encode to the end of the queue (44_channel.md R211). -/
theorem Handle.EncoderInv.pending_chanEncode (hi : h.EncoderInv) (ht : h.txState = .encoding)
    (he : encodeCall cap h = some e) :
    Handle.pending { e.handle with fifo := h.fifo ++ e.symbols, txState := h.txState.afterEncode e.status }
      = h.pending := by
  obtain rfl := encodeCall_eq_encodeTable hi he
  by_cases hf : (encodeTable cap h).status = .frameComplete
  · obtain ⟨hsyms, -⟩ := encodeTable_complete hf
    simp [Handle.pending, TxState.afterEncode, ht, hf, hsyms]
  · simp only [Handle.pending, TxState.afterEncode, ht, if_neg hf, List.append_assoc]
    exact congrArg (h.fifo ++ ·) (encodeTable_rest hi hf)

/-- While a frame is in flight the queue is what reaches the wire next (44_channel.md R214). -/
theorem Handle.pending_of_fifo_cons {sym : Symbol} {rest : List Symbol} (ht : h.txState ≠ .idle)
    (hq : h.fifo = sym :: rest) : h.pending = sym :: Handle.pending { h with fifo := rest } := by
  rcases hx : h.txState with _ | _ | _
  · exact absurd hx ht
  · simp only [Handle.pending, hx, hq]
    rfl
  · simp only [Handle.pending, hx, hq]

/-- Once a drained queue is empty nothing of the frame is left (44_channel.md R217). -/
theorem Handle.pending_of_drained (ht : h.txState = .draining) (hq : h.fifo = []) : h.pending = [] := by
  simp [Handle.pending, ht, hq]

/-- Settles O48: by what an enabled agent step can do. CHAN_ENCODE leaves wire and pending as they are, LINE_EMIT moves
the head of the queue to the wire, TX_DONE finds nothing pending. -/
theorem agentStepsConserveTheFrame : Obligations.AgentStepsConserveTheFrame := by
  intro s h h' m ⟨⟨_, hh⟩, _⟩ hi hr hm hf hh'
  obtain ⟨j, hj, -, heff⟩ := agentStep_effect hr hm
  rw [hj, State.setInst_inst] at hf hh' ⊢
  cases heff with
  | host p rest c hhost => exact absurd hhost hm
  | undef g _ was alive tx call prog handle log fault =>
    exact absurd (fault.symm.trans hf) (by decide)
  | chanEncode g e _ was alive tx call prog handle log =>
    cases hh.symm.trans was; cases hh'.symm.trans handle
    rw [log, hi.pending_chanEncode tx call]
  | lineEmit g sym rest _ was alive tx queue prog handle log =>
    cases hh.symm.trans was; cases hh'.symm.trans handle
    rw [log, wire_append, Handle.pending_of_fifo_cons tx queue, List.append_assoc]
    rfl
  | txDone g _ was alive tx queue prog handle log =>
    cases hh.symm.trans was; cases hh'.symm.trans handle
    rw [log, wire_append, wire_done, List.append_nil, Handle.pending_of_drained tx queue]
    rfl

end Sys2Proof.Machine
end

section
/-! SUPPORT. The decoder (30_encoding.md R80) read off the two numbers of a command word, its opcode and its operand
bits. -/

namespace Sys2Proof

variable {p : CommandWords} {opc : Opcode}

/-! ## The opcode -/

/-- R79 read backwards finds the opcode of its number. -/
theorem Opcode.ofCode_of_toNat {b : Byte} (hb : b.toNat = opc.code.toNat) : Opcode.ofCode b = some opc := by
  obtain rfl := BitVec.eq_of_toNat_eq hb
  cases opc <;> rfl

/-- R79 read backwards finds nothing outside 0x01 to 0x07. -/
theorem Opcode.ofCode_of_reserved {b : Byte} (hb : ¬(1 ≤ b.toNat ∧ b.toNat ≤ 7)) : Opcode.ofCode b = none := by
  unfold Opcode.ofCode
  split <;> simp_all

/-- Every number from 0x01 to 0x07 is an opcode's (R79). -/
theorem Opcode.exists_code {n : Nat} (hn : 1 ≤ n ∧ n ≤ 7) : ∃ opc : Opcode, n = opc.code.toNat := by
  obtain ⟨h1, h7⟩ := hn
  interval_cases n
  exacts [⟨.init, rfl⟩, ⟨.deinit, rfl⟩, ⟨.setPixel, rfl⟩, ⟨.transmit, rfl⟩, ⟨.stop, rfl⟩, ⟨.reset, rfl⟩,
    ⟨.encode, rfl⟩]

/-- The bits the decoder takes as the opcode are the opcode's number (R73). -/
theorem CommandWords.opcodeBits_toNat (p : CommandWords) : (p.word.extractLsb' 56 8).toNat = p.opcodeNumber := by
  have hlt : p.word.toNat < 2 ^ 64 := p.word.isLt
  rw [BitVec.extractLsb'_toNat, Nat.shiftRight_eq_div_pow]
  exact Nat.mod_eq_of_lt (by omega)

/-! ## The reserved bits -/

/-- A mask of the n bits from bit k on finds them all zero exactly when the field they hold is 0. -/
theorem and_mask_eq_zero_iff {w mask : U64} (k n : Nat) (hm : mask.toNat = (2 ^ n - 1) <<< k) :
    w &&& mask = 0 ↔ w.toNat / 2 ^ k % 2 ^ n = 0 := by
  have hfield : w.toNat &&& (2 ^ n - 1) <<< k = (w.toNat >>> k &&& (2 ^ n - 1)) <<< k := by
    refine Nat.eq_of_testBit_eq fun j => ?_
    by_cases hj : k ≤ j <;> simp [Nat.testBit_shiftLeft, hj, Bool.and_comm]
  rw [← BitVec.toNat_inj, BitVec.toNat_and, hm, hfield, Nat.and_two_pow_sub_one_eq_mod, Nat.shiftRight_eq_div_pow]
  exact Nat.shiftLeft_eq_zero_iff

/-- The decoder's mask asks what the form check asks (R73 to R77). -/
theorem CommandWords.mask_clear_iff (hp : p.opcodeNumber = opc.code.toNat) :
    p.word &&& opc.reservedMask = 0 ↔ p.reservedClear = true := by
  have formats_N_I : p.word &&& 0x00FFFFFFFFFFFFFF = 0 ↔ decide (p.operandNumber = 0) = true := by
    rw [and_mask_eq_zero_iff 0 56 rfl, pow_zero, Nat.div_one, decide_eq_true_iff, CommandWords.operandNumber]
  have format_E : p.word &&& 0x00FFFFFF00000000 = 0 ↔ decide (p.operandNumber / 2 ^ 32 = 0) = true := by
    rw [and_mask_eq_zero_iff 32 24 rfl, decide_eq_true_iff, CommandWords.operandNumber]
    omega
  rw [CommandWords.reservedClear, hp]
  cases opc with
  | setPixel => exact iff_of_true BitVec.and_zero rfl
  | encode => exact format_E
  | _ => exact formats_N_I

/-- The encoder leaves the reserved bits zero. -/
theorem encode_reservedClear (i : Instr) : (encode i).reservedClear = true := by
  have hw : (encode i).wellFormed = true := by
    cases i with
    | init cfg => exact Laws.EncodesWellFormed.init cfg
    | deinit => exact Laws.EncodesWellFormed.deinit
    | setPixel index r g b => exact Laws.EncodesWellFormed.setPixel index r g b
    | transmit => exact Laws.EncodesWellFormed.transmit
    | stop => exact Laws.EncodesWellFormed.stop
    | reset => exact Laws.EncodesWellFormed.reset
    | encode cap => exact Laws.EncodesWellFormed.encode cap
  simp only [CommandWords.wellFormed, Bool.and_eq_true] at hw
  obtain ⟨⟨-, hr⟩, -⟩ := hw
  exact hr

/-! ## The decoder -/

/-- R80 where the opcode is defined. -/
theorem decode_of_opcode (hp : p.opcodeNumber = opc.code.toNat) :
    decode p = if p.reservedClear = true then .command (opc.command p) else .illegal .reservedBits := by
  rw [decode, Opcode.ofCode_of_toNat (p.opcodeBits_toNat.trans hp)]
  exact if_congr (CommandWords.mask_clear_iff hp) rfl rfl

/-- R80 where the opcode is reserved. -/
theorem decode_of_reserved (hp : ¬(1 ≤ p.opcodeNumber ∧ p.opcodeNumber ≤ 7)) :
    decode p = .illegal .reservedOpcode := by
  rw [decode, Opcode.ofCode_of_reserved (by rwa [p.opcodeBits_toNat])]

/-- R80 in formats N and I, whose operand bits are all reserved. -/
theorem decode_of_opcode_without_fields (hp : p.opcodeNumber = opc.code.toNat) (h3 : opc ≠ .setPixel)
    (h7 : opc ≠ .encode) :
    decode p = if p.operandNumber = 0 then .command (opc.command p) else .illegal .reservedBits := by
  have hr : p.reservedClear = decide (p.operandNumber = 0) := by
    rw [CommandWords.reservedClear, hp]
    cases opc with
    | setPixel => exact absurd rfl h3
    | encode => exact absurd rfl h7
    | _ => rfl
  rw [decode_of_opcode hp, hr]
  exact if_congr decide_eq_true_iff rfl rfl

/-- R80 in format P, which has no reserved bit. -/
theorem decode_of_opcode_setPixel (hp : p.opcodeNumber = 3) : decode p = .command (Opcode.setPixel.command p) := by
  have hr : p.reservedClear = true := by simp [CommandWords.reservedClear, hp]
  rw [decode_of_opcode (opc := .setPixel) hp, if_pos hr]

/-- R80 in format E, whose operand bits above CAP are reserved. -/
theorem decode_of_opcode_encode (hp : p.opcodeNumber = 7) :
    decode p = if p.operandNumber < 2 ^ 32 then .command (Opcode.encode.command p) else .illegal .reservedBits := by
  have hr : p.reservedClear = true ↔ p.operandNumber < 2 ^ 32 := by
    simp [CommandWords.reservedClear, hp, Nat.div_eq_zero_iff]
  rw [decode_of_opcode (opc := .encode) hp]
  exact if_congr hr rfl rfl

/-- What a word that decodes to a command is made of. -/
theorem decode_eq_command {i : Instr} (h : decode p = .command i) :
    ∃ opc : Opcode, p.opcodeNumber = opc.code.toNat ∧ p.reservedClear = true ∧ i = opc.command p := by
  by_cases hp : 1 ≤ p.opcodeNumber ∧ p.opcodeNumber ≤ 7
  · obtain ⟨opc, hopc⟩ := Opcode.exists_code hp
    rw [decode_of_opcode hopc] at h
    split_ifs at h with hr
    exact ⟨opc, hopc, hr, (Decoded.command.inj h).symm⟩
  · rw [decode_of_reserved hp] at h
    cases h

/-! ## The fields -/

@[simp] theorem Opcode.command_opcode (opc : Opcode) (p : CommandWords) : (opc.command p).opcode = opc := by
  cases opc <;> rfl

/-- The block beside a command's word is read for INIT only (R82). -/
theorem decode_of_other_block {i : Instr} (h : decode p = .command i) (hi : i.opcode ≠ .init) (blk : ConfigBlock) :
    decode ⟨p.word, blk⟩ = .command i := by
  obtain ⟨opc, hopc, hr, rfl⟩ := decode_eq_command h
  have hfields : opc.command ⟨p.word, blk⟩ = opc.command p := by
    cases opc with
    | init => exact absurd rfl hi
    | _ => rfl
  rw [decode_of_opcode (p := ⟨p.word, blk⟩) hopc, hfields]
  exact if_pos hr

/-- The fields the decoder takes from a command's words are the command's (R73 to R78). -/
theorem command_encode (i : Instr) : i.opcode.command (encode i) = i := by
  have hw := encode_word_toNat i
  cases i with
  | setPixel index r g b =>
    rw [setPixel_operandBits_toNat] at hw
    simp only [Instr.opcode, Opcode.command, Instr.setPixel.injEq]
    refine ⟨?_, ?_, ?_, ?_⟩ <;>
    · apply BitVec.eq_of_toNat_eq
      rw [BitVec.extractLsb'_toNat, Nat.shiftRight_eq_div_pow, hw]
      omega
  | encode cap =>
    rw [encode_operandBits_toNat] at hw
    refine congrArg Instr.encode (BitVec.eq_of_toNat_eq ?_)
    rw [BitVec.extractLsb'_toNat, Nat.shiftRight_eq_div_pow, hw, Instr.opcode]
    omega
  | _ => rfl

/-- The operand bits of the command the decoder reads are the word's, where the reserved bits are zero. -/
theorem operandBits_command (hp : p.opcodeNumber = opc.code.toNat) (hr : p.reservedClear = true) :
    (opc.command p).operandBits.toNat = p.operandNumber := by
  rw [CommandWords.reservedClear, hp] at hr
  cases opc with
  | setPixel =>
    rw [Opcode.command, setPixel_operandBits_toNat, CommandWords.operandNumber]
    simp only [BitVec.extractLsb'_toNat, Nat.shiftRight_eq_div_pow]
    omega
  | encode =>
    have hr : p.operandNumber / 2 ^ 32 = 0 := of_decide_eq_true hr
    rw [Opcode.command, encode_operandBits_toNat, BitVec.extractLsb'_toNat, Nat.shiftRight_eq_div_pow]
    rw [CommandWords.operandNumber] at hr ⊢
    omega
  | _ => exact (of_decide_eq_true hr).symm

end Sys2Proof
end

section
/-! SUPPORT. What a line of a program needs to assemble (30_encoding.md R85, R86), mnemonic by mnemonic. -/

namespace Sys2Proof

variable {m : Mnemonic} {xs : List Nat}

theorem Line.wellFormed_iff : (Line.mk m xs).wellFormed = true ↔
    xs.length = m.arity ∧ (Line.mk m xs).operandsFit = true := by
  rw [Line.wellFormed, Bool.and_eq_true, decide_eq_true_iff]

theorem Line.wellFormed_init : (Line.mk .init xs).wellFormed = true ↔ xs.length = 9 ∧ ∀ x ∈ xs, x < 2 ^ 32 := by
  rw [Line.wellFormed_iff]
  exact and_congr_right fun _ => by simp [Line.operandsFit]

theorem Line.wellFormed_setPixel : (Line.mk .setPixel xs).wellFormed = true ↔
    ∃ index r g b, xs = [index, r, g, b] ∧ index < 2 ^ 32 ∧ r < 2 ^ 8 ∧ g < 2 ^ 8 ∧ b < 2 ^ 8 := by
  rw [Line.wellFormed_iff]
  constructor
  · rintro ⟨hlen, hfit⟩
    obtain ⟨index, r, g, b, rfl⟩ := List.length_eq_four.1 hlen
    simpa [Line.operandsFit] using hfit
  · rintro ⟨index, r, g, b, rfl, hfit⟩
    exact ⟨rfl, by simpa [Line.operandsFit] using hfit⟩

theorem Line.wellFormed_encode : (Line.mk .encode xs).wellFormed = true ↔ ∃ cap, xs = [cap] ∧ cap < 2 ^ 32 := by
  rw [Line.wellFormed_iff]
  constructor
  · rintro ⟨hlen, hfit⟩
    obtain ⟨cap, rfl⟩ := List.length_eq_one_iff.1 hlen
    simpa [Line.operandsFit] using hfit
  · rintro ⟨cap, rfl, hfit⟩
    exact ⟨rfl, by simpa [Line.operandsFit] using hfit⟩

/-- A mnemonic without operands stands alone on its line. -/
theorem Line.wellFormed_of_arity_zero (hm : m.arity = 0) : (Line.mk m xs).wellFormed = true ↔ xs = [] := by
  rw [Line.wellFormed_iff, hm, List.length_eq_zero_iff]
  refine and_iff_left_of_imp ?_
  rintro rfl
  cases m <;> rfl

/-- A well-formed line assembles, and no other: it has as many operands as its mnemonic's arm of `assemble` takes. -/
theorem assemble_isSome_iff (leds : Nat) :
    (assemble leds ⟨m, xs⟩).isSome = true ↔ (Line.mk m xs).wellFormed = true := by
  unfold assemble
  split_ifs with hw
  · refine iff_of_true ?_ hw
    obtain ⟨hlen, -⟩ := Line.wellFormed_iff.1 hw
    cases m with
    | init => match xs, hlen with | [_, _, _, _, _, _, _, _, _], _ => rfl
    | setPixel => match xs, hlen with | [_, _, _, _], _ => rfl
    | encode => match xs, hlen with | [_], _ => rfl
    | _ => rfl
  · exact iff_of_false nofun hw

theorem clearCommands_length (leds : Nat) : (clearCommands leds).length = leds := by simp [clearCommands]

theorem clearCommands_getElem? {leds k : Nat} (hk : k < leds) :
    (clearCommands leds)[k]? = some (.setPixel (BitVec.ofNat 32 k) 0 0 0) := by simp [clearCommands, hk]

end Sys2Proof
end

section
/-! SUPPORT. A Host's turn in a step, and a fault as the whole state it leaves. -/

namespace Sys2Proof.Machine

open Sys2Proof

variable {s : State} {i : Instance} {p : CommandWords} {rest : List CommandWords}

theorem step_of_nextChoice {c : Choice} (hc : s.nextChoice = some c) : step s = runMove c.move (s.turn c) := by
  rw [step, hc]

/-- The system about to take a step of instance k, written out: that instance in focus, the schedule moved on. -/
theorem State.turn_eq {k : Nat} {m : Move} (hi : s.instances[k]? = some i) :
    s.turn ⟨k, m⟩ = { before := s.instances.take k, inst := i, after := s.instances.drop (k + 1),
                      sched := s.schedule.tail, turns := s.turns + 1 } := by
  simp [State.turn, State.focus, hi]

/-- Words that spell no command, taken off the program (30_encoding.md R81). -/
theorem issueNext_of_illegal {why : Illegal} (hp : s.inst.prog = p :: rest) (hd : decode p = .illegal why) :
    issueNext s = .next (s.setInst { s.inst with prog := rest }).issueIllegal := by
  simp only [issueNext, hp, hd]

/-- A fault raised by an instance that is not quiescent (60_exceptions.md R232, effects 1 and 2). -/
theorem State.raise_eq_faultedWith (c : FaultCode) (hf : s.inst.fault = 0) : s.raise c = s.faultedWith c.mask := by
  simp [State.raise, State.answer, State.setInst, Instance.raise, State.faultedWith, hf]

/-- Faulted answered and no bit gained (60_exceptions.md R232, effect 4). -/
theorem State.answer_faulted_eq_faultedWith (s : State) : s.answer .faulted = s.faultedWith s.inst.fault := rfl

/-- An illegal word to an instance that is not quiescent sets FAULT bit 0 (30_encoding.md R81). -/
theorem State.issueIllegal_alive (hf : s.inst.fault = 0) : s.issueIllegal = s.faultedWith 1 :=
  (State.ifAlive_alive hf).trans (State.raise_eq_faultedWith .illegalCommand hf)

/-- An illegal word to a quiescent instance (60_exceptions.md R232, effect 4). -/
theorem State.issueIllegal_quiescent (hf : s.inst.fault ≠ 0) : s.issueIllegal = s.faultedWith s.inst.fault :=
  (State.ifAlive_quiescent hf).trans s.answer_faulted_eq_faultedWith

end Sys2Proof.Machine
end

section
/-! PROOFS. Encodings (30_encoding.md). -/

namespace Sys2Proof.Machine

open Sys2Proof

/-! ## Commands and their words -/

/-- Settles O1: the encoder's word has the opcode's number above the operand bits, its reserved bits are zero, and the
fields the decoder takes from it are the command's. -/
theorem decodeOfEncodeIsTheCommand : Obligations.DecodeOfEncodeIsTheCommand := by
  intro i
  rw [decode_of_opcode (encode_opcodeNumber i), if_pos (encode_reservedClear i), command_encode]

/-- Settles O2: a word is its opcode's number and its operand bits, and the command read from it has both. -/
theorem encodeOfDecodeIsTheWord : Obligations.EncodeOfDecodeIsTheWord := by
  intro p i h
  obtain ⟨opc, hopc, hr, rfl⟩ := decode_eq_command h
  refine ⟨BitVec.eq_of_toNat_eq ?_, fun hinit => ?_⟩
  · calc (encode (opc.command p)).word.toNat
        = p.opcodeNumber * 2 ^ 56 + p.operandNumber := by
          rw [encode_word_toNat, operandBits_command hopc hr, Opcode.command_opcode, hopc]
      _ = p.word.toNat := Nat.div_add_mod' _ _
  · rw [Opcode.command_opcode] at hinit
    subst hinit
    rfl

/-- Settles O3: by the opcode's number, in each format by what the decoder does there. -/
theorem decoderFollowsTheOpcodeMap : Obligations.DecoderFollowsTheOpcodeMap := by
  intro p
  refine ⟨fun h => decode_of_reserved fun hp => ?_, fun h => ?_, fun h => ?_, fun h => ?_, fun h => ?_, fun h => ?_,
    fun h => ?_, fun h => ?_⟩
  · rw [CommandWords.opcodeNumber] at hp
    omega
  · exact decode_of_opcode_without_fields (opc := .init) h nofun nofun
  · exact decode_of_opcode_without_fields (opc := .deinit) h nofun nofun
  · rw [decode_of_opcode_setPixel h]
    simp only [← Nat.shiftRight_eq_div_pow]
    rfl
  · exact decode_of_opcode_without_fields (opc := .transmit) h nofun nofun
  · exact decode_of_opcode_without_fields (opc := .stop) h nofun nofun
  · exact decode_of_opcode_without_fields (opc := .reset) h nofun nofun
  · exact decode_of_opcode_encode h

/-- The Illegal word of R87: TRANSMIT with bit 0 set. -/
theorem decode_transmit_bit0 (blk : ConfigBlock) : decode ⟨0x0400000000000001, blk⟩ = .illegal .reservedBits := by
  have hopc : (CommandWords.mk 0x0400000000000001 blk).opcodeNumber = Opcode.transmit.code.toNat :=
    show (0x0400000000000001 : U64).toNat / 2 ^ 56 = 4 by decide
  rw [decode_of_opcode_without_fields hopc nofun nofun]
  exact if_neg (show (0x0400000000000001 : U64).toNat % 2 ^ 56 ≠ 0 by decide)

/-- The word of a command other than INIT decodes to it, whatever block stands beside the word (R82). -/
theorem decode_encode_word {i : Instr} {w : U64} (hw : (encode i).word = w) (hi : i.opcode ≠ .init)
    (blk : ConfigBlock) : decode ⟨w, blk⟩ = .command i := by
  subst hw
  exact decode_of_other_block (decodeOfEncodeIsTheCommand i) hi blk

/-- Settles O4: the encoder runs on each command of the table, and its words decode to the command. -/
theorem encodingExamplesOfTheSpec : Obligations.EncodingExamplesOfTheSpec := by
  have init_word : Opcode.init.code ++ (0 : BitVec 56) = (0x0100000000000000 : U64) := rfl
  have encode_init (cfg : ConfigBlock) : encode (.init cfg) = ⟨0x0100000000000000, cfg⟩ :=
    congrArg (CommandWords.mk · cfg) init_word
  exact ⟨encode_init, rfl, rfl, rfl, rfl, rfl, rfl, rfl, rfl,
    fun cfg => by rw [← encode_init, decodeOfEncodeIsTheCommand],
    decode_encode_word rfl nofun, decode_encode_word rfl nofun, decode_encode_word rfl nofun,
    decode_encode_word rfl nofun, decode_encode_word rfl nofun, decode_encode_word rfl nofun,
    decode_encode_word rfl nofun, decode_encode_word rfl nofun, decode_transmit_bit0⟩

/-! ## Symbol words -/

/-- Settles O5: a field appended above others adds its number times the weight of its lowest bit. -/
theorem symbolWordPlacesItsFields : Obligations.SymbolWordPlacesItsFields := by
  refine ⟨fun s => ?_, rfl⟩
  rw [Symbol.word, BitVec.toNat_append, BitVec.toNat_append, BitVec.toNat_append,
    ← Nat.shiftLeft_add_eq_or_of_lt s.duration0.isLt, ← Nat.shiftLeft_add_eq_or_of_lt (BitVec.isLt _),
    ← Nat.shiftLeft_add_eq_or_of_lt s.duration1.isLt, BitVec.toNat_ofBool, BitVec.toNat_ofBool]
  simp only [Nat.shiftLeft_eq]
  ring

/-! ## The assembler -/

/-- Settles O8: a line assembles when it is well formed, and operands taken from machine words fit their fields. -/
theorem assemblerRefusesWhatDoesNotFit : Obligations.AssemblerRefusesWhatDoesNotFit := by
  have word_fits (x : U32) : x.toNat < 4294967296 := x.isLt
  have byte_fits (x : Byte) : x.toNat < 256 := x.isLt
  refine ⟨fun leds m xs => (assemble_isSome_iff leds).trans ?_, fun leds cfg => ?_, fun _ => rfl,
    fun leds index r g b => ?_, fun _ => rfl, fun _ => rfl, fun _ => rfl, fun leds cap => ?_, fun _ => rfl,
    fun leds => ⟨clearCommands leds, rfl, clearCommands_length leds, fun _ => clearCommands_getElem?⟩⟩
  · cases m with
    | init => exact Line.wellFormed_init
    | setPixel => exact Line.wellFormed_setPixel
    | encode => exact Line.wellFormed_encode
    | _ => exact Line.wellFormed_of_arity_zero rfl
  · simp [assemble, Line.wellFormed, Line.operandsFit, Mnemonic.arity, word_fits]
  · simp [assemble, Line.wellFormed, Line.operandsFit, Mnemonic.arity, word_fits, byte_fits]
  · simp [assemble, Line.wellFormed, Line.operandsFit, Mnemonic.arity, word_fits]

/-! ## CLEAR -/

/-- Each byte of a pixel written black reads 0x00, whatever the channel order; every other byte reads as before. -/
theorem Handle.writePixel_black_read (h : Handle) (order : ChannelOrder) (k a : Nat) (hw : h.pb.wf) :
    (h.writePixel order k 0 0 0).pb.read a = if a / 3 = k then some 0 else h.pb.read a := by
  split_ifs with ha
  · have hblack : arrange order 0 0 0 = (0, 0, 0) := by cases order <;> rfl
    obtain ⟨h0, h1, h2⟩ := h.writePixel_read order k 0 0 0 hw
    rw [hblack] at h0 h1 h2
    obtain rfl | rfl | rfl : a = 3 * k ∨ a = 3 * k + 1 ∨ a = 3 * k + 2 := by omega
    exacts [h0, h1, h2]
  · exact h.writePixel_read_other order k 0 0 0 a (by omega)

/-- Setting pixels to black one after another blackens their bytes and no other; an idle instance stays idle, with its
configuration. -/
theorem runCommands_black {s : State} {h : Handle} (pixels : List Nat) (hs : s.IdleAt h) (hw : h.pb.wf)
    (hlt : ∀ k ∈ pixels, k < h.cfg.ledCount.toNat) :
    ∃ t h', runCommands (pixels.map fun k => .setPixel (BitVec.ofNat 32 k) 0 0 0) s = some t ∧ t.IdleAt h' ∧
      h'.cfg = h.cfg ∧ ∀ a, h'.pb.read a = if a / 3 ∈ pixels then some 0 else h.pb.read a := by
  induction pixels generalizing s h with
  | nil => exact ⟨s, h, rfl, hs, rfl, fun a => by simp⟩
  | cons k rest ih =>
    obtain ⟨hk, hrest⟩ := List.forall_mem_cons.1 hlt
    have hindex : (BitVec.ofNat 32 k).toNat = k := Nat.mod_eq_of_lt (hk.trans h.cfg.ledCount.isLt)
    have hexec := exec_setPixel_of_lt (index := BitVec.ofNat 32 k) hs (by rwa [hindex]) 0 0 0
    rw [hindex] at hexec
    obtain ⟨⟨halive, -⟩, hidle⟩ := hs
    obtain ⟨t, h', hrun, ht, hcfg, hread⟩ :=
      ih (s := s.ended (some (h.writePixel s.inst.par.channelOrder k 0 0 0)) s.inst.draws .ok) ⟨⟨halive, rfl⟩, hidle⟩
        (h.writePixel_wf _ _ _ _ _ hw) hrest
    refine ⟨t, h', ?_, ht, hcfg, fun a => ?_⟩
    · rw [List.map_cons, runCommands, hexec]
      exact hrun
    · rw [hread, Handle.writePixel_black_read _ _ _ _ hw, ← ite_or]
      simp only [List.mem_cons, or_comm]

/-- Settles O30: CLEAR sets every pixel below LED_COUNT to black, and every byte below 3·LED_COUNT is one of theirs. -/
theorem clearDefinesEveryByte : Obligations.ClearDefinesEveryByte := by
  intro s h hs hw
  obtain ⟨t, h', hrun, ht, hcfg, hread⟩ :=
    runCommands_black (List.range h.cfg.ledCount.toNat) hs hw fun _ => List.mem_range.1
  refine ⟨t, h', hrun, ht, hcfg, fun a ha => ?_⟩
  rw [Handle.len] at ha
  rw [hread, if_pos (List.mem_range.2 (by omega))]

/-! ## Illegal words -/

/-- Settles O12: the Host's turn takes the words off the program, and what is left is what an illegal word does. -/
theorem illegalWordFaults : Obligations.IllegalWordFaults := by
  intro s k i p rest why hc hi hp hd
  dsimp only
  rw [step_of_nextChoice hc, State.turn_eq hi, runMove, issueNext_of_illegal hp hd]
  exact ⟨fun hf => by rw [State.issueIllegal_alive hf]; rfl, fun hf => by rw [State.issueIllegal_quiescent hf]; rfl⟩

end Sys2Proof.Machine
end

section
/-! PROOFS. Construction arithmetic (40_symbols.md). -/

namespace Sys2Proof.Machine

open Sys2Proof

/-- At 10 MHz a tick lasts 100 ns (40_symbols.md R102). -/
theorem ticksOf_ten_megahertz (ns : U32) : ticksOf 10000000 ns = ns.toNat / 100 :=
  Nat.mul_div_mul_right ns.toNat 100 (show 0 < 10000000 by decide)

/-- The tick counts of the worked configuration (40_symbols.md R110). -/
theorem ticks_worked_configuration (pin leds cap : U32) :
    ticks ⟨pin, leds, 10000000, 300, 900, 900, 300, 25000, cap⟩ = ⟨3, 9, 9, 3, 250⟩ := by
  simp only [ticks, ticksOf_ten_megahertz]
  rfl

/-- Settles O24: the configuration enters the templates by its tick counts alone, so pin, LED count and capacity drop out. -/
theorem templatesOfTheScenario : Obligations.TemplatesOfTheScenario := by
  intro pin leds cap
  rw [ticks_worked_configuration]
  exact ⟨rfl, rfl, rfl, rfl, rfl, rfl⟩

end Sys2Proof.Machine
end

section
/-! PROOFS. The sub-encoders (41_sub_encoders.md). -/

namespace Sys2Proof.Machine

open Sys2Proof

variable {h : Handle} {cap : Nat}

/-! ## The Bit Encoder -/

/-- The j-th Symbol of a stretch of the stream is that of its j-th bit (20_memory.md R64). -/
theorem Handle.stream_getElem? {c n j : Nat} (hj : j < n) : (h.stream c n)[j]? = some (h.streamSymbol (c + j)) := by
  simp [Handle.stream, hj]

/-- Of bits that are emitted each lies in a defined byte, and its Symbol is chosen by its value there
(41_sub_encoders.md R121, R130). -/
theorem Handle.emitBits_getElem? {k c j : Nat} {syms : List Symbol} (he : h.emitBits k c = some syms) (hj : j < k) :
    ∃ byte, h.pb.read (byteOfBit (c + j)) = some byte ∧
      syms[j]? = some (h.symbolFor (bitOfByte (c + j) byte)) := by
  have hdefined : h.pb.read (byteOfBit (c + j)) ≠ none := fun hundef => by
    have hnone := (h.emitBits_none k c).2 ⟨c + j, by omega, by omega, hundef⟩
    simp [hnone] at he
  obtain ⟨byte, hbyte⟩ := Option.ne_none_iff_exists'.1 hdefined
  refine ⟨byte, hbyte, ?_⟩
  rw [Handle.emitBits_some he, Handle.stream_getElem? hj, Handle.streamSymbol, hbyte, Option.getD_some]

/-- The Symbols of a BitEncode call are those of the COUNT bits from BIT_CURSOR on (41_sub_encoders.md R120). -/
theorem bitEncode_emitBits {b : SubResult} (he : bitEncode cap h = some b) :
    h.emitBits b.count h.bitCursor = some b.symbols := by
  unfold bitEncode at he
  split at he
  · cases he; rfl
  · dsimp only at he
    split at he
    · cases he
    · rename_i syms hs
      cases he; exact hs

/-- Settles O35: without capacity the call is empty; otherwise it reports and moves as R122 to R124 have it, and its
Symbols are those of the bits it emits. -/
theorem bitEncodeContract : Obligations.BitEncodeContract := by
  intro cap h b _ he
  have hsyms : ∀ j < b.count, ∃ byte, h.pb.read ((h.bitCursor + j) / 8) = some byte ∧
      b.symbols[j]? = some (if byte.getLsbD (7 - (h.bitCursor + j) % 8) then h.bit1 else h.bit0) :=
    fun _ hj => Handle.emitBits_getElem? (bitEncode_emitBits he) hj
  obtain ⟨hlength, -⟩ := bitEncode_count he
  rcases Nat.eq_zero_or_pos cap with rfl | hc
  · obtain rfl : _ = b := Option.some.inj he
    exact ⟨(Nat.zero_min _).symm, hlength, rfl, fun _ => rfl, nofun, hsyms⟩
  · obtain rfl := bitEncode_eq_of_some hc.ne' he
    exact ⟨rfl, hlength, rfl, fun hzero => absurd hzero hc.ne', fun _ => decide_eq_true_iff, hsyms⟩

/-! ## The Latch Encoder -/

/-- Settles O36: LATCH_CURSOR is tested first, the capacity second (41_sub_encoders.md R128). -/
theorem latchEncodeContract : Obligations.LatchEncodeContract := by
  intro cap h
  refine ⟨fun hdone => ?_, fun hl hc => ?_, fun hl hc => ?_⟩
  · rw [latchEncode, if_pos hdone]
  · rw [latchEncode, if_neg (by simp [hl]), if_pos hc]
  · rw [latchEncode, if_neg (by simp [hl]), if_neg (by omega)]

end Sys2Proof.Machine
end

section
/-! SUPPORT. When an Encode call raises its fault, how much of the frame a call emits, and the calls of a frame one
after another (42_composite_encoder.md). -/

namespace Sys2Proof.Machine

open Sys2Proof

variable {h h' : Handle} {cap : Nat} {caps : List Nat} {e : Encoded} {syms : List Symbol}

/-! ## When a call raises UNINIT_PIXEL_READ -/

theorem bitEncode_eq_none_iff : bitEncode cap h = none ↔
    ∃ c, h.bitCursor ≤ c ∧ c < h.bitCursor + cap ∧ c < h.bits ∧ h.pb.read (c / 8) = none := by
  by_cases hc : cap = 0
  · simp only [bitEncode, if_pos hc, reduceCtorEq, false_iff]
    rintro ⟨c, hle, hlt, -⟩
    omega
  · have hnone : bitEncode cap h = none ↔ h.emitBits (min cap (h.bits - h.bitCursor)) h.bitCursor = none := by
      rw [bitEncode, if_neg hc]
      dsimp only
      split <;> simp [*]
    rw [hnone, Handle.emitBits_none]
    refine exists_congr fun c => and_congr_right fun hle => ?_
    rw [← and_assoc]
    exact and_congr_left' (by omega)

/-- An Encode call faults where the Bit Encoder runs into an undef byte, and nowhere else (42_composite_encoder.md
R147). -/
theorem encodeCall_eq_none_iff : encodeCall cap h = none ↔ h.phase = .sending ∧
    ∃ c, h.bitCursor ≤ c ∧ c < h.bitCursor + cap ∧ c < h.bits ∧ h.pb.read (c / 8) = none := by
  rw [← bitEncode_eq_none_iff]
  by_cases hc : cap = 0
  · simp [encodeCall, bitEncode, hc]
  · rcases hp : h.phase with _ | _
    · simp only [encodeCall, if_neg hc, hp, true_and]
      rcases bitEncode cap h with _ | b
      · simp
      · simp only [reduceCtorEq, iff_false]
        split <;> nofun
    · simp [encodeCall, hc, hp]

/-- Where the bytes a call reads are defined it has its row of the table (42_composite_encoder.md R149). -/
theorem encodeCall_of_definedWithin (hi : h.EncoderInv) (hd : h.DefinedWithin cap) :
    encodeCall cap h = some (encodeTable cap h) := by
  rcases he : encodeCall cap h with _ | e
  · obtain ⟨-, c, hle, hcap, hbits, hundef⟩ := encodeCall_eq_none_iff.1 he
    simpa [hundef] using hd c hbits hle hcap
  · rw [encodeCall_eq_encodeTable hi he]

/-! ## How much of the frame a call emits -/

/-- A call emits what it has room for of what is left of the frame (42_composite_encoder.md R155). -/
theorem encodeTable_count (hi : h.EncoderInv) : (encodeTable cap h).count = min cap h.rest.length := by
  rw [hi.rest_length]
  simp only [encodeTable]
  split
  · simp [*]
  · split
    · rename_i hp
      obtain ⟨-, hfull, -⟩ := hi
      rw [hfull hp]
      simp only
      omega
    · split_ifs <;> simp only <;> omega

/-! ## The encoder does not read TX_STATE -/

/-- TX_STATE alone written. -/
def Handle.setTx (h : Handle) (tx : TxState) : Handle := { h with txState := tx }

/-- An outcome with TX_STATE alone written. -/
def Encoded.setTx (e : Encoded) (tx : TxState) : Encoded := { e with handle := e.handle.setTx tx }

variable {tx : TxState}

theorem Handle.emitBits_setTx (k c : Nat) : (h.setTx tx).emitBits k c = h.emitBits k c := by
  induction k generalizing c with
  | zero => rfl
  | succ k ih =>
    simp only [Handle.emitBits, ih]
    rfl

theorem latchStep_setTx (cap n : Nat) (syms : List Symbol) (h : Handle) :
    latchStep cap n syms (h.setTx tx) = (latchStep cap n syms h).setTx tx := by
  by_cases hl : h.latchCursor = 1
  · simp [latchStep, latchEncode, Encoded.setTx, Handle.setTx, Handle.rewind, hl]
  · by_cases hc : cap - n = 0
    · simp [latchStep, latchEncode, Encoded.setTx, Handle.setTx, hl, hc]
    · simp [latchStep, latchEncode, Encoded.setTx, Handle.setTx, Handle.rewind, hl, hc]

theorem bitEncode_setTx : bitEncode cap (h.setTx tx)
    = (bitEncode cap h).map fun b => { b with handle := b.handle.setTx tx } := by
  by_cases hc : cap = 0
  · simp [bitEncode, hc]
  · have hbits : (h.setTx tx).emitBits (min cap ((h.setTx tx).bits - (h.setTx tx).bitCursor)) (h.setTx tx).bitCursor
        = h.emitBits (min cap (h.bits - h.bitCursor)) h.bitCursor := Handle.emitBits_setTx _ _
    simp only [bitEncode, if_neg hc, hbits]
    rcases h.emitBits (min cap (h.bits - h.bitCursor)) h.bitCursor with _ | syms <;> rfl

/-- An Encode call neither reads nor writes TX_STATE (42_composite_encoder.md R140). -/
theorem encodeCall_setTx : encodeCall cap (h.setTx tx) = (encodeCall cap h).map (·.setTx tx) := by
  by_cases hc : cap = 0
  · simp [encodeCall, hc, Encoded.setTx]
  · have hphase : (h.setTx tx).phase = h.phase := rfl
    rcases hp : h.phase with _ | _
    · simp only [encodeCall, if_neg hc, hphase, hp, bitEncode_setTx]
      rcases bitEncode cap h with _ | b
      · rfl
      · by_cases hd : b.done = true
        · simp only [Option.map_some, hd, if_true]
          exact congrArg some (latchStep_setTx cap b.count b.symbols { b.handle with phase := .latching })
        · simp only [Option.map_some, if_neg hd]
          rfl
    · simp only [encodeCall, if_neg hc, hphase, hp, latchStep_setTx, Option.map_some]

theorem encodeFrame_cons (he : encodeCall cap h = some e) : encodeFrame (cap :: caps) h
    = if e.status = .frameComplete then (if caps = [] then some e.symbols else none)
      else (encodeFrame caps e.handle).map (e.symbols ++ ·) := by
  rw [encodeFrame, he]

/-- So the calls of a frame emit the same whatever TX_STATE is. -/
theorem encodeFrame_setTx : encodeFrame caps (h.setTx tx) = encodeFrame caps h := by
  induction caps generalizing h with
  | nil => rfl
  | cons cap caps ih =>
    rcases he : encodeCall cap h with _ | e
    · simp [encodeFrame, encodeCall_setTx, he]
    · have he' : encodeCall cap (h.setTx tx) = some (e.setTx tx) := by rw [encodeCall_setTx, he, Option.map_some]
      rw [encodeFrame_cons he, encodeFrame_cons he', Encoded.setTx, ih]

/-! ## The calls of a frame -/

/-- The calls of a frame emit what was left of it, however their capacities cut it (42_composite_encoder.md R154). -/
theorem encodeFrame_eq_rest (hi : h.EncoderInv) (hd : h.txState ≠ .draining)
    (hf : encodeFrame caps h = some syms) : syms = h.rest := by
  induction caps generalizing h syms with
  | nil => cases hf
  | cons cap caps ih =>
    rcases he : encodeCall cap h with _ | e
    · simp [encodeFrame, he] at hf
    · obtain rfl := encodeCall_eq_encodeTable hi he
      rw [encodeFrame_cons he] at hf
      by_cases hdone : (encodeTable cap h).status = .frameComplete
      · obtain ⟨hsyms, -⟩ := encodeTable_complete hdone
        rw [if_pos hdone] at hf
        split at hf
        · rw [← hsyms, Option.some.inj hf]
        · cases hf
      · rw [if_neg hdone] at hf
        obtain ⟨later, hlater, rfl⟩ := Option.map_eq_some_iff.1 hf
        have hnext : (encodeTable cap h).handle.txState ≠ .draining := by
          rwa [(encodeTable_sameBut cap h).txState]
        rw [ih (encodeTable_encoderInv hi hd) hnext hlater, encodeTable_rest hi hdone]

/-- Capacities that add up to what is left of the frame complete it (42_composite_encoder.md R154, R155). -/
theorem exists_take_encodeFrame (hi : h.EncoderInv) (hd : h.txState ≠ .draining) (hdef : h.Defined)
    (hcaps : h.rest.length ≤ caps.sum) : ∃ n, encodeFrame (caps.take n) h = some h.rest := by
  induction caps generalizing h with
  | nil =>
    rw [hi.rest_length, List.sum_nil] at hcaps
    omega
  | cons cap caps ih =>
    have he := encodeCall_of_definedWithin hi (hdef.within cap)
    by_cases hdone : (encodeTable cap h).status = .frameComplete
    · obtain ⟨hsyms, -⟩ := encodeTable_complete hdone
      refine ⟨1, ?_⟩
      rw [List.take_succ_cons, encodeFrame_cons he, if_pos hdone, List.take_zero, if_pos rfl, hsyms]
    · have hrest := encodeTable_rest hi hdone
      have hsame := encodeTable_sameBut cap h
      have hnext := encodeTable_encoderInv (cap := cap) hi hd
      have hleft : (encodeTable cap h).handle.rest.length ≤ caps.sum := by
        have hlen := congrArg List.length hrest
        rw [List.length_append, encodeTable_length, encodeTable_count hi] at hlen
        have hmore : 1 ≤ (encodeTable cap h).handle.rest.length := by
          rw [hnext.rest_length]
          omega
        rw [List.sum_cons] at hcaps
        omega
      obtain ⟨n, hn⟩ := ih hnext (hsame.txState ▸ hd) (hsame.defined hdef) hleft
      refine ⟨n + 1, ?_⟩
      rw [List.take_succ_cons, encodeFrame_cons he, if_neg hdone, hn, Option.map_some, hrest]

/-! ## A frame from its start -/

/-- R29 holds of the encoder of a frame that is drained as of an idle one. -/
theorem Handle.EncoderInv.setTx_idle (hi : h.EncoderInv) : (h.setTx .idle).EncoderInv :=
  have ⟨hle, hfull, hlatch, _, hsend, hled⟩ := hi
  ⟨hle, hfull, hlatch, nofun, hsend, hled⟩

/-- At (Sending, 0, 0) the whole frame is left, whatever TX_STATE is. -/
theorem Handle.setTx_rest_of_start (hp : h.phase = .sending) (hc : h.bitCursor = 0) :
    (h.setTx tx).rest = h.frame := by
  have hrest : (h.setTx tx).rest = h.rest := rfl
  rw [hrest, Handle.rest, hp, hc]
  rfl

/-- A complete encoding from (Sending, 0, 0) emits the frame (42_composite_encoder.md R154). -/
theorem encodeFrame_eq_frame (hi : h.EncoderInv) (hp : h.phase = .sending) (hc : h.bitCursor = 0)
    (hf : encodeFrame caps h = some syms) : syms = h.frame := by
  rw [← encodeFrame_setTx (tx := .idle)] at hf
  rw [encodeFrame_eq_rest hi.setTx_idle nofun hf, Handle.setTx_rest_of_start hp hc]

/-- Capacities that add up to a frame's length complete one from (Sending, 0, 0) (42_composite_encoder.md R154). -/
theorem exists_take_encodeFrame_eq_frame (hi : h.EncoderInv) (hp : h.phase = .sending) (hc : h.bitCursor = 0)
    (hdef : h.Defined) (hcaps : h.bits + 1 ≤ caps.sum) : ∃ n, encodeFrame (caps.take n) h = some h.frame := by
  have hrest : (h.setTx .idle).rest = h.frame := Handle.setTx_rest_of_start hp hc
  obtain ⟨n, hn⟩ := exists_take_encodeFrame hi.setTx_idle nofun hdef (by rwa [hrest, Handle.frame_length])
  exact ⟨n, by rw [← encodeFrame_setTx (tx := .idle), hn, hrest]⟩

end Sys2Proof.Machine
end

section
/-! PROOFS. The composite encoder (42_composite_encoder.md). -/

namespace Sys2Proof.Machine

open Sys2Proof

variable {s : State} {h h' : Handle} {e : Encoded}

/-! ## One Encode call -/

/-- Settles O38: a call whose bytes are defined does not fault, and one that does not fault is its row. -/
theorem encodeCallFollowsTheTable : Obligations.EncodeCallFollowsTheTable :=
  fun _ _ => encodeCall_of_definedWithin

/-- Settles O40: the call is its row of the table, which emits what it has room for of the rest of the frame; something
is always left. -/
theorem everyEncodeCallMakesProgress : Obligations.EveryEncodeCallMakesProgress := by
  intro cap h e hi hd he hcap
  obtain ⟨hlength, -⟩ := encodeCall_count he
  obtain rfl := encodeCall_eq_encodeTable hi he
  have hcount : (encodeTable cap h).count = min cap (h.bits - h.bitCursor + 1) := by
    rw [encodeTable_count hi, hi.rest_length]
  exact ⟨by omega, by omega, hlength, encodeTable_encoderInv hi hd⟩

/-! ## ENCODE by the Host -/

/-- A Host ENCODE that raises no fault writes the handle and returns the call's outcome (42_composite_encoder.md
R148). -/
theorem exec_encode_of_some {cap : U32} (hs : s.IdleAt h) (he : encodeCall cap.toNat h = some e) :
    exec (.encode cap) s = .next (s.ended (some e.handle) s.inst.draws (.encoded e.count e.status e.symbols)) := by
  show execEncode cap s = _
  rw [execEncode, State.ifIdle_idleAt hs, he]
  rfl

/-- A Host ENCODE of an undef byte sets FAULT bit 8 (42_composite_encoder.md R147). -/
theorem exec_encode_of_none {cap : U32} (hs : s.IdleAt h) (he : encodeCall cap.toNat h = none) :
    exec (.encode cap) s = .next (s.faultedWith 0x100) := by
  obtain ⟨⟨halive, -⟩, -⟩ := id hs
  show execEncode cap s = _
  rw [execEncode, State.ifIdle_idleAt hs, he]
  exact congrArg _ (State.raise_eq_faultedWith .uninitPixelRead halive)

/-- Settles O20: the call fails at the undef bit, and a failed call has no effect but the fault. -/
theorem hostEncodeOfUndefRollsBack : Obligations.HostEncodeOfUndefRollsBack := by
  intro s h cap c hs hp hle hcap hbits hundef
  exact exec_encode_of_none hs (encodeCall_eq_none_iff.2 ⟨hp, c, hle, hcap, hbits, hundef⟩)

/-- Settles O37: a call of no capacity ends before it looks at PHASE. -/
theorem zeroCapacityEncodeChangesNothing : Obligations.ZeroCapacityEncodeChangesNothing := by
  have hzero (h : Handle) : encodeCall 0 h = some ⟨0, .inProgress, [], h⟩ := if_pos rfl
  exact ⟨hzero, fun s h hs => exec_encode_of_some (cap := 0) hs (hzero h)⟩

/-- A handle that differs in PHASE and the cursors only, written out. -/
theorem Handle.SameBut.eq (hs : h.SameBut h') :
    h' = { h with phase := h'.phase, bitCursor := h'.bitCursor, latchCursor := h'.latchCursor } := by
  rw [← hs.cfg, ← hs.bit0, ← hs.bit1, ← hs.latch, ← hs.txState, ← hs.pb, ← hs.fifo]

/-- Settles O39: the call is its row of the table, which writes PHASE and the cursors only and leaves R29, hence
LATCH_CURSOR 0. -/
theorem hostEncodeReturnsTheTableOutcome : Obligations.HostEncodeReturnsTheTableOutcome := by
  intro s h cap hs hi hd
  dsimp only
  have he := encodeCall_of_definedWithin hi hd
  obtain ⟨hlength, hcount⟩ := encodeCall_count he
  obtain ⟨-, -, hlatch, -⟩ := encodeTable_encoderInv (cap := cap.toNat) hi (by simp [hs.2])
  refine ⟨exec_encode_of_some hs he, hlength, hcount, ?_⟩
  rw [← hlatch]
  exact (encodeTable_sameBut cap.toNat h).eq

/-! ## RESET, and who moves the encoder -/

/-- RESET of an idle instance rewinds the encoder (42_composite_encoder.md R150). -/
theorem exec_reset_idleAt (hs : s.IdleAt h) : exec .reset s = .next (s.ended (some h.rewind) s.inst.draws .ok) := by
  show execReset s = _
  rw [execReset, State.ifIdle_idleAt hs]
  rfl

/-- Settles O41: by the checks before RESET's effect. -/
theorem resetRewindsTheEncoder : Obligations.ResetRewindsTheEncoder := by
  refine fun s => ⟨fun hs => ?_, fun h hs => ?_, fun h hs => exec_reset_idleAt hs⟩
  · show execReset s = _
    rw [execReset, State.ifIdle_blank hs]
    exact congrArg _ (State.raise_eq_faultedWith .notInitialized hs.1)
  · show execReset s = _
    rw [execReset, State.ifIdle_inFlight hs]
    exact congrArg _ (State.raise_eq_faultedWith .resetWhileActive hs.1.1)

/-- Settles O60: by the cases of a step on the handle; but for RESET and the two kinds of Encode call each writes other
fields. -/
theorem onlyEncodeAndResetMoveTheEncoder : Obligations.OnlyEncodeAndResetMoveTheEncoder := by
  intro s t c i j h h' hc hs hi hj hh hh' hne
  cases (step_effect_chosen hc hs hi hj).handleEffect hh hh' with
  | reset hm issued =>
    obtain ⟨p, rest, hp, hd⟩ := issued
    exact .inr ⟨hm, p, rest, hp, .inl hd⟩
  | encode cap e hm issued =>
    obtain ⟨p, rest, hp, hd⟩ := issued
    exact .inr ⟨hm, p, rest, hp, .inr ⟨cap, hd⟩⟩
  | chanEncode e hm => exact .inl hm
  | _ => exact absurd rfl hne

/-- STOP of an instance in flight halts the channel and answers Ok (43_strip_handle.md R195). -/
theorem exec_stop_inFlight (hs : s.InFlight h) :
    exec .stop s = .next ((s.setInst (s.inst.halt h (s.inst.stopK s.slot h))).answer .ok) := by
  show execStop s = _
  rw [execStop, State.ifInited_live hs.1, if_neg hs.2]

/-- An accepted TRANSMIT of an idle instance puts it in Encoding (43_strip_handle.md R186). -/
theorem exec_transmit_accepted (hs : s.IdleAt h) (ha : s.inst.chanAccept s.slot = true) :
    exec .transmit s
      = .next (s.ended (some { h with txState := .encoding }) s.inst.draws.pastChanAccept .ok) := by
  show execTransmit s = _
  rw [execTransmit, State.ifIdle_idleAt hs, if_pos ha]
  rfl

/-- Settles O33: STOP leaves the handle but for FIFO and TX_STATE, the accepted TRANSMIT but for TX_STATE. -/
theorem transmitAfterStopResumesTheStaleFrame : Obligations.TransmitAfterStopResumesTheStaleFrame := by
  intro s t u h hs hstop haccept htransmit
  rw [exec_stop_inFlight hs, Host.Outcome.next.injEq] at hstop
  have ht : t.IdleAt { h with fifo := [], txState := .idle } := by
    subst hstop
    exact ⟨⟨hs.1.1, rfl⟩, rfl⟩
  rw [exec_transmit_accepted ht haccept, Host.Outcome.next.injEq] at htransmit
  subst htransmit
  exact ⟨rfl, ht.1.1⟩

/-! ## A whole frame -/

/-- Settles O42: by induction over the calls, each of which takes its Symbols off what is left of the frame. -/
theorem chunkingDoesNotChangeTheFrame : Obligations.ChunkingDoesNotChangeTheFrame := by
  intro h hi hdef hp hc
  refine ⟨fun caps syms hf => ?_, fun caps => exists_take_encodeFrame_eq_frame hi hp hc hdef⟩
  obtain rfl := encodeFrame_eq_frame hi hp hc hf
  exact ⟨rfl, h.frame_length, List.getLast?_concat⟩

/-- The frame is a matter of configuration, templates and pixel buffer (20_memory.md R64). -/
theorem Handle.frame_congr (hcfg : h'.cfg = h.cfg) (hb0 : h'.bit0 = h.bit0) (hb1 : h'.bit1 = h.bit1)
    (hlatch : h'.latch = h.latch) (hpb : h'.pb = h.pb) : h'.frame = h.frame :=
  have hsame : h.SameBut { h' with txState := h.txState, fifo := h.fifo } := ⟨hcfg, hb0, hb1, hlatch, rfl, hpb, rfl⟩
  hsame.frame_eq

/-- Settles O43: RESET leaves the encoder at (Sending, 0, 0) with its buffer, so both encodings emit the frame. -/
theorem resetAndEncodeAgainRepeatsTheFrame : Obligations.ResetAndEncodeAgainRepeatsTheFrame := by
  intro s h h₀ caps₀ syms₀ hs hi hdef hi₀ hp₀ hc₀ hcfg hb0 hb1 hlatch hpb hf₀
  have hsyms : syms₀ = h.rewind.frame :=
    (encodeFrame_eq_frame hi₀ hp₀ hc₀ hf₀).trans (Handle.frame_congr hcfg hb0 hb1 hlatch hpb)
  subst hsyms
  exact ⟨_, h.rewind, exec_reset_idleAt hs, ⟨⟨hs.1.1, rfl⟩, hs.2⟩,
    fun _ _ => encodeFrame_eq_frame hi.rewind rfl rfl,
    fun _ => exists_take_encodeFrame_eq_frame hi.rewind rfl rfl hdef⟩

end Sys2Proof.Machine
end

section
/-! SUPPORT. The checks before a command's effect as the whole state they leave, and the construction checks by their
sub-cause. -/

namespace Sys2Proof.Machine

open Sys2Proof

variable {s : State} {h : Handle} {o : Option Handle} {k : Handle → State} {i : Instr}

/-! ## The checks before an effect -/

/-- A command that only answers leaves the handle and the draws it found. -/
theorem State.answer_eq_ended (r : Reply) (ho : s.inst.handle = o) : s.answer r = s.ended o s.inst.draws r := by
  subst ho
  rfl

/-- An instance waiting for INIT faults at every other command (60_exceptions.md R236). -/
theorem exec_blank (hb : s.Blank) (hi : ∀ cfg, i ≠ .init cfg) : exec i s = .next (s.faultedWith 0x2) := by
  have hraise : s.raise .notInitialized = s.faultedWith 0x2 := State.raise_eq_faultedWith .notInitialized hb.1
  rw [← hraise]
  cases i with
  | init cfg => exact absurd rfl (hi cfg)
  | stop => exact congrArg _ (State.ifInited_blank hb)
  | deinit | setPixel | transmit | reset | encode => exact congrArg _ (State.ifIdle_blank hb)

/-- With a frame in flight a command that is checked for one sets its own FAULT bit and changes nothing else
(60_exceptions.md R232, R233). -/
theorem exec_inFlight (c : FaultCode) (hs : s.InFlight h) (he : exec i s = .next (s.ifIdle c k)) :
    exec i s = .next (s.faultedWith c.mask) := by
  rw [he, State.ifIdle_inFlight hs, State.raise_eq_faultedWith c hs.1.1]

/-! ## The construction checks -/

section
variable {par : Params} {cfg : ConfigBlock}

/-- The checks 1 to 3 of 43_strip_handle.md R172 share the sub-cause CONFIG. -/
theorem constructionFault_config
    (hbad : ¬(cfg.signalPin ∉ par.invalidPins ∧ (1 ≤ cfg.ledCount.toNat ∧ cfg.ledCount.toNat ≤ par.maxLedCount) ∧
      1 ≤ cfg.symBufCap.toNat)) :
    constructionFault par cfg = some .config := by
  unfold constructionFault
  split_ifs with hpin hleds hcap
  · rfl
  · rfl
  · rfl
  all_goals
    have hpin : cfg.signalPin ∉ par.invalidPins := by simpa [pinValid] using hpin
    exact absurd ⟨hpin, by omega, by omega⟩ hbad

/-- The check 4 of 43_strip_handle.md R172 has the sub-cause TIMING. -/
theorem constructionFault_timing (hpin : cfg.signalPin ∉ par.invalidPins)
    (hleds : 1 ≤ cfg.ledCount.toNat ∧ cfg.ledCount.toNat ≤ par.maxLedCount) (hcap : 1 ≤ cfg.symBufCap.toNat)
    (ht : timingLegal (ticks cfg) = false) : constructionFault par cfg = some .timing := by
  rw [constructionFault, if_neg (by simpa [pinValid] using hpin), if_neg (by omega), if_neg (by omega), if_pos ht]

/-- A tick count in the range of 40_symbols.md R104 is held whole by a Symbol's duration. -/
theorem duration_toNat {n : Nat} (hn : 1 ≤ n ∧ n ≤ 32767) : (BitVec.ofNat 15 n).toNat = n := by
  rw [BitVec.toNat_ofNat]
  omega

end

/-- The check 5 of 43_strip_handle.md R172: no channel is left. -/
theorem State.channelsFull_eq_false_iff :
    s.channelsFull = false ↔ (s.instances.filter Instance.inited).length < s.inst.par.numChannels := by
  simp [State.channelsFull]

end Sys2Proof.Machine
end

section
/-! PROOFS. The Strip Handle's commands (43_strip_handle.md). -/

namespace Sys2Proof.Machine

open Sys2Proof

variable {s : State} {h : Handle} {cfg : ConfigBlock}

/-! ## INIT -/

/-- INIT of a configuration that fails a construction check answers the sub-cause (43_strip_handle.md R173). -/
theorem exec_init_illegal {cause : Cause} (hb : s.Blank) (hc : constructionFault s.inst.par cfg = some cause) :
    exec (.init cfg) s = .next (s.ended none s.inst.draws (.constructionError cause)) := by
  show execInit cfg s = _
  rw [execInit, State.ifAlive_alive hb.1, if_neg (by simp [hb.2]), hc]
  exact congrArg _ (State.answer_eq_ended _ hb.2)

/-- INIT of a legal configuration goes by the channels that are left, then by ALLOC_OK (43_strip_handle.md R172 to
R174). -/
theorem exec_init_legal (hb : s.Blank) (hc : constructionFault s.inst.par cfg = none) :
    exec (.init cfg) s = .next
      (if s.channelsFull then s.ended none s.inst.draws (.constructionError .alloc)
      else if s.inst.allocOk s.slot then s.ended (some (Handle.fresh s.inst.par cfg)) s.inst.draws.pastAllocOk .ok
      else s.ended none s.inst.draws.pastAllocOk (.constructionError .alloc)) := by
  show execInit cfg s = _
  rw [execInit, State.ifAlive_alive hb.1, if_neg (by simp [hb.2]), hc]
  dsimp only
  split_ifs
  · exact congrArg _ (State.answer_eq_ended _ hb.2)
  · rfl
  · exact congrArg _ (State.answer_eq_ended _ hb.2)

/-- Settles O25: the handle is `Handle.fresh`; the durations hold the tick counts of a legal configuration whole. -/
theorem initCreatesAFreshHandle : Obligations.InitCreatesAFreshHandle := by
  intro s cfg hb hc hfree halloc
  obtain ⟨-, -, -, ht⟩ := constructionFault_none.1 hc
  obtain ⟨h0h, h0l, h1h, h1l, hl, -⟩ := timingLegal_iff.1 ht
  refine ⟨Handle.fresh s.inst.par cfg, ?_, rfl,
    rfl, duration_toNat h0h, rfl, duration_toNat h0l,
    rfl, duration_toNat h1h, rfl, duration_toNat h1l,
    rfl, duration_toNat hl, rfl, duration_toNat hl, fun a => ?_, rfl, rfl, rfl, rfl, rfl⟩
  · simp [exec_init_legal hb hc, hfree, halloc]
  · show (Memory.fresh s.inst.par.initFill).read a = _
    rw [Memory.fresh_read]
    cases s.inst.par.initFill <;> rfl

/-- Settles O26: checks 1 to 4 are those of `constructionFault`; a legal configuration meets checks 5 and 6. -/
theorem initFailsAtItsFirstFailedCheck : Obligations.InitFailsAtItsFirstFailedCheck := by
  intro s cfg hb fails pinOk ledsOk capOk t inRange timesOk roomLeft
  have hconfig (hbad : ¬(pinOk ∧ ledsOk ∧ capOk)) : fails .config s.inst.draws :=
    exec_init_illegal hb (constructionFault_config hbad)
  have hlegal (hpin : pinOk) (hleds : ledsOk) (hcap : capOk) (ht : timesOk) :=
    exec_init_legal hb (constructionFault_none.2 ⟨hpin, hleds, hcap, timingLegal_iff.2 ht⟩)
  have hroom_iff : s.channelsFull = false ↔ roomLeft := State.channelsFull_eq_false_iff
  refine ⟨?_, ?_, ?_, ?_, ?_, ?_, ?_⟩
  · exact fun hpin => hconfig fun ⟨h, _, _⟩ => hpin h
  · exact fun _ hleds => hconfig fun ⟨_, h, _⟩ => hleds h
  · exact fun _ _ hcap => hconfig fun ⟨_, _, h⟩ => hcap h
  · intro hpin hleds hcap ht
    have htiming : timingLegal (ticks cfg) = false := Bool.eq_false_iff.2 fun hl => ht (timingLegal_iff.1 hl)
    exact exec_init_illegal hb (constructionFault_timing hpin hleds hcap htiming)
  · intro hpin hleds hcap ht hroom
    have hfull : s.channelsFull = true := Bool.of_not_eq_false (mt hroom_iff.1 hroom)
    simp [fails, hlegal hpin hleds hcap ht, hfull]
  · intro hpin hleds hcap ht hroom halloc
    simp [fails, hlegal hpin hleds hcap ht, hroom_iff.2 hroom, halloc]
  · intro hpin hleds hcap ht hroom halloc
    refine ⟨Handle.fresh s.inst.par cfg, ?_⟩
    simp [hlegal hpin hleds hcap ht, hroom_iff.2 hroom, halloc]

/-- Settles O18: INITED is checked before the configuration is looked at. -/
theorem secondInitFaults : Obligations.SecondInitFaults := by
  intro s h cfg ⟨halive, hh⟩
  show execInit cfg s = _
  rw [execInit, State.ifAlive_alive halive, if_pos ((Instance.inited_iff _).2 ⟨h, hh⟩)]
  exact congrArg _ (State.raise_eq_faultedWith .doubleInit halive)

/-! ## A frame in flight -/

/-- Settles O19: the five commands share one check, each with its own fault. -/
theorem commandInFlightFaults : Obligations.CommandInFlightFaults :=
  fun _ _ hs => ⟨fun _ _ _ _ => exec_inFlight .pixelWriteInFlight hs rfl, exec_inFlight .txWhileInFlight hs rfl,
    exec_inFlight .deinitInFlight hs rfl, exec_inFlight .resetWhileActive hs rfl,
    fun _ => exec_inFlight .encodeConflict hs rfl⟩

/-! ## DEINIT, SET_PIXEL, TRANSMIT -/

/-- Settles O27: before INIT and in flight by the shared checks; idle, the handle is written away. -/
theorem deinitReleasesTheHandle : Obligations.DeinitReleasesTheHandle :=
  fun s => ⟨fun hb => exec_blank hb (by simp), fun _ hs => exec_inFlight .deinitInFlight hs rfl,
    fun _ hs => congrArg _ (State.ifIdle_idleAt hs)⟩

/-- Settles O29: the index is compared before anything is written. -/
theorem setPixelOutOfRangeChangesNothing : Obligations.SetPixelOutOfRangeChangesNothing := by
  intro s h index r g b hs hle
  show execSetPixel index r g b s = _
  rw [execSetPixel, State.ifIdle_idleAt hs, if_neg hle.not_gt]
  exact congrArg _ (State.answer_eq_ended _ hs.1.2)

/-- A TRANSMIT that the channel refuses changes nothing but the draws (43_strip_handle.md R187). -/
theorem exec_transmit_busy (hs : s.IdleAt h) (ha : s.inst.chanAccept s.slot = false) :
    exec .transmit s = .next (s.ended (some h) s.inst.draws.pastChanAccept .channelBusy) := by
  show execTransmit s = _
  rw [execTransmit, State.ifIdle_idleAt hs, if_neg (by simp [ha])]
  exact congrArg _ (State.answer_eq_ended _ hs.1.2)

/-- Settles O31: before INIT and in flight by the shared checks; idle, by the draw. -/
theorem transmitIsAcceptedOrBusy : Obligations.TransmitIsAcceptedOrBusy :=
  fun s => ⟨fun hb => exec_blank hb (by simp), fun _ hs => exec_inFlight .txWhileInFlight hs rfl,
    fun _ => exec_transmit_accepted, fun _ => exec_transmit_busy⟩

/-! ## STOP and ABORT -/

/-- STOP of an idle instance only answers Ok (43_strip_handle.md R195). -/
theorem exec_stop_idleAt (hs : s.IdleAt h) : exec .stop s = .next (s.ended (some h) s.inst.draws .ok) := by
  show execStop s = _
  rw [execStop, State.ifInited_live hs.1, if_pos hs.2]
  exact congrArg _ (State.answer_eq_ended _ hs.1.2)

/-- Settles O32: the drawn k is a remainder, hence no more than is queued. -/
theorem stopHaltsTheChannel : Obligations.StopHaltsTheChannel :=
  fun s => ⟨fun hb => exec_blank hb (by simp), fun _ => exec_stop_idleAt,
    fun h hs => ⟨_, s.inst.stopK_le s.slot h, rfl, exec_stop_inFlight hs⟩⟩

/-- A command with a next state, then the rest of the list. -/
theorem runCommands_cons {i : Instr} {is : List Instr} {t : State} (he : exec i s = .next t) :
    runCommands (i :: is) s = runCommands is t := by
  rw [runCommands, he]

/-- Settles O34: STOP leaves the instance idle with an empty FIFO, where RESET rewinds the encoder. -/
theorem abortLeavesACleanEncoder : Obligations.AbortLeavesACleanEncoder := by
  intro s h hs
  have halive := hs.1.1
  have hidle : ((s.setInst (s.inst.halt h (s.inst.stopK s.slot h))).answer .ok).IdleAt
      { h with fifo := [], txState := .idle } := ⟨⟨halive, rfl⟩, rfl⟩
  have hrun := (runCommands_cons (is := [.reset]) (exec_stop_inFlight hs)).trans
    (runCommands_cons (exec_reset_idleAt hidle))
  exact ⟨_, hrun, halive, rfl⟩

end Sys2Proof.Machine
end

section
/-! SUPPORT. When the Channel and the Line may step, what their steps leave as the whole state, and how far each brings
the frame (44_channel.md). -/

namespace Sys2Proof.Machine

open Sys2Proof

variable {s : State} {h : Handle} {i j : Instance} {cap k : Nat} {m : Move} {e : Encoded}

/-! ## When a step is enabled -/

/-- The Host may issue while its program holds a command (log 1). -/
theorem Instance.ready_host_iff : i.ready .host = true ↔ i.prog ≠ [] := by
  simp [Instance.ready]

/-- What the Channel and the Line ask of the registers they ask of a live instance (60_exceptions.md R232, R236). -/
theorem Instance.ready_chanEncode_iff :
    i.ready .chanEncode = true ↔ i.fault = 0 ∧ ∃ h, i.handle = some h ∧ h.txState = .encoding := by
  rcases hh : i.handle with _ | h
  · simp [Instance.ready, hh]
  · simp [Instance.ready, hh, Instance.quiescent]

theorem Instance.ready_lineEmit_iff :
    i.ready .lineEmit = true ↔ i.fault = 0 ∧ ∃ h, i.handle = some h ∧ h.txState ≠ .idle ∧ h.fifo ≠ [] := by
  rcases hh : i.handle with _ | h
  · simp [Instance.ready, hh]
  · simp [Instance.ready, hh, Instance.quiescent, and_assoc]

theorem Instance.ready_txDone_iff :
    i.ready .txDone = true ↔ i.fault = 0 ∧ ∃ h, i.handle = some h ∧ h.txState = .draining ∧ h.fifo = [] := by
  rcases hh : i.handle with _ | h
  · simp [Instance.ready, hh]
  · simp [Instance.ready, hh, Instance.quiescent, and_assoc]

/-- An idle instance waits for its Host (60_exceptions.md R252). -/
theorem Instance.not_ready_of_idle (hh : i.handle = some h) (ht : h.txState = .idle) (hm : m ≠ .host) :
    i.ready m ≠ true := by
  cases m with
  | host => exact absurd rfl hm
  | chanEncode => simp [Instance.ready_chanEncode_iff, hh, ht]
  | lineEmit => simp [Instance.ready_lineEmit_iff, hh, ht]
  | txDone => simp [Instance.ready_txDone_iff, hh, ht]

/-- A frame in flight never waits for its Host (44_channel.md R219). -/
theorem State.InFlight.exists_ready (hs : s.InFlight h) : ∃ m, m ≠ .host ∧ s.inst.ready m = true := by
  obtain ⟨⟨halive, hh⟩, ht⟩ := hs
  by_cases hq : h.fifo = []
  · rcases hx : h.txState with _ | _ | _
    · exact absurd hx ht
    · exact ⟨.chanEncode, nofun, Instance.ready_chanEncode_iff.2 ⟨halive, h, hh, hx⟩⟩
    · exact ⟨.txDone, nofun, Instance.ready_txDone_iff.2 ⟨halive, h, hh, hx, hq⟩⟩
  · exact ⟨.lineEmit, nofun, Instance.ready_lineEmit_iff.2 ⟨halive, h, hh, ht, hq⟩⟩

/-! ## CHAN_ENCODE as the whole state it leaves -/

/-- The handle after a CHAN_ENCODE whose call gave `e` (44_channel.md R211). -/
abbrev Handle.afterCall (h : Handle) (e : Encoded) : Handle :=
  { e.handle with fifo := h.fifo ++ e.symbols, txState := h.txState.afterEncode e.status }

theorem State.agentStep_chanEncode (hh : s.inst.handle = some h) :
    s.agentStep .chanEncode = s.setInst (s.inst.chanEncode h (s.inst.chanCap s.slot h)) := by
  simp only [State.agentStep, hh]

theorem Instance.chanEncode_of_some (he : encodeCall cap h = some e) :
    i.chanEncode h cap = { i with handle := some (h.afterCall e), draws := i.draws.pastChanCap } := by
  simp only [Instance.chanEncode, he]

/-- A call that reads an undef byte leaves its FAULT bit only (42_composite_encoder.md R147). -/
theorem Instance.chanEncode_of_none (hf : i.fault = 0) (he : encodeCall cap h = none) :
    i.chanEncode h cap = { i with fault := 0x100, draws := i.draws.pastChanCap } := by
  simp only [Instance.chanEncode, he, Instance.raise, hf]
  rfl

/-! ## CHAN_ENCODE and the handle -/

/-- What is still to be encoded is a matter of the encoder and the buffer, not of the channel. -/
theorem Handle.rest_setChannel (h : Handle) (tx : TxState) (fifo : List Symbol) :
    Handle.rest { h with txState := tx, fifo := fifo } = h.rest := rfl

/-- CHAN_ENCODE keeps the frame in flight (10_state.md R31). -/
theorem TxState.afterEncode_ne_idle {tx : TxState} (ht : tx = .encoding) (status : Status) :
    tx.afterEncode status ≠ .idle := by
  subst ht
  rw [TxState.afterEncode]
  split <;> nofun

/-- CHAN_ENCODE keeps R29: the call that makes the instance Draining has rewound the encoder. -/
theorem Handle.EncoderInv.afterCall (hi : h.EncoderInv) (ht : h.txState = .encoding)
    (he : encodeCall cap h = some e) : (h.afterCall e).EncoderInv := by
  obtain rfl := encodeCall_eq_encodeTable hi he
  obtain ⟨hle, hfull, hlatch, -, hsend, hled⟩ := encodeTable_encoderInv (cap := cap) hi (by simp [ht])
  refine ⟨hle, hfull, hlatch, fun hdrain => ?_, hsend, hled⟩
  have hdone : (encodeTable cap h).status = .frameComplete := by
    by_contra hmore
    simp [ht, TxState.afterEncode, hmore] at hdrain
  obtain ⟨-, hrewound⟩ := encodeTable_complete hdone
  exact ⟨congrArg Handle.phase hrewound, congrArg Handle.bitCursor hrewound⟩

/-- A call of no capacity leaves the handle as it is (42_composite_encoder.md R144). -/
theorem Handle.afterCall_of_no_capacity (he : encodeCall 0 h = some e) : h.afterCall e = h := by
  obtain rfl : _ = e := Option.some.inj he
  simp [Handle.afterCall, TxState.afterEncode]

/-- A call with capacity lowers the work left: each Symbol it moves to the queue counts twice before and once after
(42_composite_encoder.md R155). -/
theorem Handle.EncoderInv.afterCall_work (hi : h.EncoderInv) (ht : h.txState = .encoding)
    (he : encodeCall cap h = some e) (hcap : cap ≠ 0) : (h.afterCall e).work < h.work := by
  have hleft := hi.rest_length
  have hcount := encodeTable_count (cap := cap) hi
  obtain rfl := encodeCall_eq_encodeTable hi he
  by_cases hdone : (encodeTable cap h).status = .frameComplete
  · obtain ⟨hsyms, -⟩ := encodeTable_complete hdone
    simp only [Handle.work, ht, TxState.afterEncode, if_pos hdone, List.length_append, hsyms]
    omega
  · have hrest := congrArg List.length (encodeTable_rest hi hdone)
    rw [List.length_append, encodeTable_length] at hrest
    simp only [Handle.work, ht, TxState.afterEncode, if_neg hdone, List.length_append, encodeTable_length,
      Handle.rest_setChannel]
    omega

/-! ## The work left under the Line's steps -/

theorem Handle.work_of_fifo_cons {sym : Symbol} {rest : List Symbol} (ht : h.txState ≠ .idle)
    (hq : h.fifo = sym :: rest) : Handle.work { h with fifo := rest } < h.work := by
  rcases hx : h.txState with _ | _ | _
  · exact absurd hx ht
  · simp only [Handle.work, hx, hq, Handle.rest_setChannel, List.length_cons]
    omega
  · simp only [Handle.work, hx, hq, List.length_cons]
    omega

theorem Handle.work_of_drained (ht : h.txState = .draining) : Handle.work { h with txState := .idle } < h.work := by
  simp [Handle.work, ht]

/-- Each agent step that raises no fault lowers the work left, but for a CHAN_ENCODE offered no capacity (44_channel.md
R219). -/
theorem StepEffect.agent_work (he : StepEffect k m i j) (hm : m ≠ .host) (hh : i.handle = some h) (hi : h.EncoderInv)
    (hf : j.fault = 0) :
    ∃ h', j.handle = some h' ∧ (h'.work < h.work ∨ h' = h ∧ m = .chanEncode ∧ i.chanCap k h = 0) := by
  cases he with
  | host p rest c hhost => exact absurd hhost hm
  | undef g _ was alive tx call prog handle log fault => exact absurd (fault.symm.trans hf) (by decide)
  | chanEncode g e hchan was alive tx call prog handle =>
    cases hh.symm.trans was
    refine ⟨_, handle, ?_⟩
    by_cases hcap : i.chanCap k h = 0
    · exact .inr ⟨Handle.afterCall_of_no_capacity (hcap ▸ call), hchan, hcap⟩
    · exact .inl (hi.afterCall_work tx call hcap)
  | lineEmit g sym rest _ was alive tx queue prog handle =>
    cases hh.symm.trans was
    exact ⟨_, handle, .inl (Handle.work_of_fifo_cons tx queue)⟩
  | txDone g _ was alive tx queue prog handle =>
    cases hh.symm.trans was
    exact ⟨_, handle, .inl (Handle.work_of_drained tx)⟩

/-- An agent step raises no fault where the bytes that a CHAN_ENCODE would read are defined (42_composite_encoder.md
R147). -/
theorem StepEffect.agent_alive (he : StepEffect k m i j) (hm : m ≠ .host) (hh : i.handle = some h) (hi : h.EncoderInv)
    (hd : h.DefinedWithin (i.chanCap k h)) (hf : i.fault = 0) : j.fault = 0 := by
  cases he with
  | host p rest c hhost => exact absurd hhost hm
  | undef g _ was alive tx call =>
    cases hh.symm.trans was
    exact nomatch call.symm.trans (encodeCall_of_definedWithin hi hd)
  | _ => exact (‹j.fault = i.fault›).trans hf

end Sys2Proof.Machine
end

section
/-! SUPPORT. A frame along the agent steps of its own instance, and an instance along a run of the system. -/

namespace Sys2Proof.Machine

open Sys2Proof

variable {s t : State} {h h' : Handle} {i j : Instance} {k m n : Nat} {a : Move} {ms : List Move} {r : Nat → State}

/-! ## The Channel and Line steps of one instance -/

/-- The first step of a list that runs is enabled, and the others run after it. -/
theorem runAgents_cons (hrun : runAgents (a :: ms) s = some t) :
    a ≠ .host ∧ s.inst.ready a = true ∧ runAgents ms (s.agentStep a) = some t := by
  rw [runAgents] at hrun
  split at hrun
  · rename_i hc
    exact ⟨hc.1, hc.2, hrun⟩
  · cases hrun

/-- Once an instance is idle none of its agents runs on (60_exceptions.md R252). -/
theorem runAgents_of_idle (hh : s.inst.handle = some h) (ht : h.txState = .idle) (hrun : runAgents ms s = some t) :
    t = s := by
  cases ms with
  | nil => exact (Option.some.inj hrun).symm
  | cons a ms =>
    obtain ⟨ha, hready, -⟩ := runAgents_cons hrun
    exact absurd hready (Instance.not_ready_of_idle hh ht ha)

/-- Agent steps that take an instance from in flight to idle put all that was pending on the wire, then Done
(44_channel.md R218). -/
theorem runAgents_log (hs : s.InFlight h) (hi : h.EncoderInv) (hd : h.Defined) (hrun : runAgents ms s = some t)
    (hh' : t.inst.handle = some h') (hidle : h'.txState = .idle) :
    t.inst.log = s.inst.log ++ h.pending.map .sym ++ [.done] ∧ t.inst.fault = 0 := by
  induction ms generalizing s h with
  | nil =>
    obtain ⟨⟨-, hh⟩, ht⟩ := hs
    obtain rfl : s = t := Option.some.inj hrun
    cases hh.symm.trans hh'
    exact absurd hidle ht
  | cons a ms ih =>
    obtain ⟨⟨halive, hh⟩, ht⟩ := hs
    obtain ⟨ha, hready, hrest⟩ := runAgents_cons hrun
    obtain ⟨j, hj, -, heff⟩ := agentStep_effect hready ha
    have hf := heff.agent_alive ha hh hi (hd.within _) halive
    rw [hj] at hrest
    cases heff with
    | host p rest c hhost => exact absurd hhost ha
    | undef g _ was alive tx call prog handle log fault => exact absurd (fault.symm.trans hf) (by decide)
    | chanEncode g e _ was alive tx call prog handle log =>
      cases hh.symm.trans was
      have hnext : (s.setInst j).InFlight (h.afterCall e) := ⟨⟨hf, handle⟩, TxState.afterEncode_ne_idle tx e.status⟩
      have hdef : (h.afterCall e).Defined := (encodeCall_sameBut call).defined hd
      have := ih hnext (hi.afterCall tx call) hdef hrest
      rwa [State.setInst_inst, log, hi.pending_chanEncode tx call] at this
    | lineEmit g sym rest _ was alive tx queue prog handle log =>
      cases hh.symm.trans was
      have hnext : (s.setInst j).InFlight { h with fifo := rest } := ⟨⟨hf, handle⟩, tx⟩
      have := ih hnext hi hd hrest
      rw [State.setInst_inst, log] at this
      rw [Handle.pending_of_fifo_cons tx queue]
      simpa using this
    | txDone g _ was alive tx queue prog handle log =>
      cases hh.symm.trans was
      obtain rfl := runAgents_of_idle (s := s.setInst j) handle rfl hrest
      rw [Handle.pending_of_drained tx queue]
      exact ⟨by simpa using log, hf⟩

/-! ## An instance along a run -/

theorem Instance.own_eq_iff :
    j.own = i.own ↔ j.par = i.par ∧ j.handle = i.handle ∧ j.fault = i.fault ∧ j.log = i.log := by
  simp [Instance.own]

/-- What an instance holds of its own is all that its invariant speaks of. -/
theorem Instance.Inv.of_own (ho : j.own = i.own) (hi : i.Inv) : j.Inv := by
  obtain ⟨hpar, hhandle, hfault, hlog⟩ := Instance.own_eq_iff.1 ho
  rwa [Instance.Inv, hpar, hhandle, hfault, hlog]

theorem State.SameBlock.exists_at (hst : s.SameBlock t) (hi : s.instances[k]? = some i) :
    ∃ j, t.instances[k]? = some j ∧ j.own = i.own := by
  have hown : (t.instances.map Instance.own)[k]? = some i.own := by
    rw [← hst, List.getElem?_map, hi, Option.map_some]
  rw [List.getElem?_map] at hown
  exact Option.map_eq_some_iff.1 hown

/-- Inputs given anew keep the invariant. -/
theorem State.SameBlock.inv (hst : s.SameBlock t) (hs : s.Inv) : t.Inv := by
  intro j hj
  have hown : j.own ∈ s.instances.map Instance.own := hst ▸ List.mem_map_of_mem hj
  obtain ⟨i, hi, ho⟩ := List.mem_map.1 hown
  have hlen : s.instances.length = t.instances.length := by simpa using congrArg List.length hst
  obtain ⟨hnum, hinv⟩ := hs i hi
  have hpar : i.par = j.par := congrArg Prod.fst ho
  exact ⟨by rw [← hpar, hnum, hlen], hinv.of_own ho.symm⟩

/-- A run keeps the invariant. -/
theorem IsRun.inv (hr : IsRun r) (hn : (r n).Inv) (hm : n ≤ m) : (r m).Inv := by
  induction m, hm using Nat.le_induction with
  | base => exact hn
  | succ m _ ih =>
    rcases hr m with ⟨t, hstep, hsame⟩ | ⟨-, hsame⟩
    · exact hsame.inv (stepKeepsTheInvariant _ _ ih hstep)
    · exact hsame.inv ih

/-- The Channel and the Line always answer a next state. -/
theorem runMove_agent (ha : a ≠ .host) (s : State) : runMove a s = .next (s.agentStep a) := by
  cases a with
  | host => exact absurd rfl ha
  | chanEncode | lineEmit | txDone => rfl

/-- Any instance across a step: as it was, and not the chosen one, or what its chosen step leaves. -/
theorem exists_at_of_step (hs : step s = .next t) (hi : s.instances[k]? = some i) :
    ∃ j, t.instances[k]? = some j ∧
      ((∀ a, s.nextChoice ≠ some ⟨k, a⟩) ∧ j = i ∨ ∃ a, s.nextChoice = some ⟨k, a⟩ ∧ StepEffect k a i j) := by
  obtain ⟨c, i', j, hc, hi', -, rfl, hj, -, he⟩ := step_effect hs
  by_cases hk : k = c.slot
  · subst hk
    cases hi.symm.trans hi'
    exact ⟨j, hj, .inr ⟨c.move, hc, he⟩⟩
  · refine ⟨i, (turn_setInst_other hi' hk).trans hi, .inl ⟨fun a ha => ?_, rfl⟩⟩
    cases hc.symm.trans ha
    exact hk rfl

/-- Any instance across a time of a run: it holds what it held, and no Channel or Line step of it is taken, or it holds
what the step taken of it leaves. -/
theorem IsRun.exists_at_succ (hr : IsRun r) (hi : (r n).instances[k]? = some i) :
    ∃ j, (r (n + 1)).instances[k]? = some j ∧
      ((∀ a, Takes r n k a → a = .host) ∧ j.own = i.own ∨
        ∃ a i', Takes r n k a ∧ StepEffect k a i i' ∧ j.own = i'.own) := by
  rcases hr n with ⟨t, hstep, hsame⟩ | ⟨hstop, hsame⟩
  · obtain ⟨i', hi', hcase⟩ := exists_at_of_step hstep hi
    obtain ⟨j, hj, ho⟩ := hsame.exists_at hi'
    rcases hcase with ⟨hnot, rfl⟩ | ⟨a, htakes, he⟩
    · exact ⟨j, hj, .inl ⟨fun a ha => absurd ha (hnot a), ho⟩⟩
    · exact ⟨j, hj, .inr ⟨a, i', htakes, he, ho⟩⟩
  · obtain ⟨j, hj, ho⟩ := hsame.exists_at hi
    refine ⟨j, hj, .inl ⟨fun a htakes => ?_, ho⟩⟩
    by_contra ha
    rw [step_of_nextChoice htakes, runMove_agent ha] at hstop
    cases hstop

/-! ## A frame in flight along a run -/

/-- From `i` to `j` the instance has faulted, or its LOG has gained the end of a frame. -/
def Instance.FrameEnded (i j : Instance) : Prop :=
  j.fault ≠ 0 ∨ ∃ gained, j.log = i.log ++ gained ∧ (.done ∈ gained ∨ ∃ q, .halt q ∈ gained)

/-- From `i` to `j` the instance stays live with a frame in flight, its handle then `h`. -/
structure Instance.FrameStays (i j : Instance) (h : Handle) : Prop where
  log : i.log <+: j.log
  alive : j.fault = 0
  handle : j.handle = some h
  inFlight : h.txState ≠ .idle

/-- The frame ended since an earlier LOG of the instance if it ended since a later one. -/
theorem Instance.FrameStays.ended {i' : Instance} (hs : i.FrameStays i' h) (he : i'.FrameEnded j) : i.FrameEnded j := by
  rcases he with hf | ⟨gained, hlog, hend⟩
  · exact .inl hf
  · obtain ⟨before, hbefore⟩ := hs.log
    refine .inr ⟨before ++ gained, by rw [hlog, ← hbefore, List.append_assoc], ?_⟩
    simp only [List.mem_append]
    exact hend.imp .inr (Exists.imp fun _ => .inr)

theorem Instance.FrameStays.trans {i' : Instance} (hs : i.FrameStays i' h) (hs' : i'.FrameStays j h') :
    i.FrameStays j h' :=
  ⟨hs.log.trans hs'.log, hs'.alive, hs'.handle, hs'.inFlight⟩

/-- A Host's command to an instance in flight leaves the handle, faults, or is the STOP that halts the frame
(60_exceptions.md R233). -/
theorem CommandEffect.inFlight {c : Option Instr} (he : CommandEffect c i j) (hh : i.handle = some h)
    (ht : h.txState ≠ .idle) : i.FrameEnded j ∨ j.handle = some h := by
  have never {g : Handle} (was : i.handle = some g) (idle : g.txState = .idle) : False := by
    cases hh.symm.trans was
    exact ht idle
  cases he with
  | kept handle => exact .inr (handle.trans hh)
  | init cfg cmd was => exact nomatch hh.symm.trans was
  | stop g q cmd was active bound handle log =>
    exact .inl (.inr ⟨_, by rw [log, List.append_assoc], .inr ⟨q, by simp⟩⟩)
  | deinit | setPixel | transmit | reset | encode => exact (never ‹_› ‹_›).elim

/-- A step of an instance in flight ends the frame, brings it nearer its end, or is one of the Host or of a Channel
offered no capacity and leaves the handle (44_channel.md R219). -/
theorem StepEffect.inFlight (he : StepEffect k a i j) (hh : i.handle = some h) (ht : h.txState ≠ .idle)
    (hi : h.EncoderInv) :
    i.FrameEnded j ∨ ∃ h', i.FrameStays j h' ∧
      (h'.work < h.work ∨ h' = h ∧ (a ≠ .host → a = .chanEncode ∧ i.chanCap k h = 0)) := by
  by_cases hf : j.fault = 0
  swap
  · exact .inl (.inl hf)
  obtain ⟨gained, hlog, -⟩ := he.log_appends
  have hpre : i.log <+: j.log := ⟨gained, hlog.symm⟩
  by_cases ha : a = .host
  · cases he with
    | host p rest c hm hprog decoded prog effect =>
      exact (effect.inFlight hh ht).imp_right fun hj => ⟨h, ⟨hpre, hf, hj, ht⟩, .inr ⟨rfl, absurd ha⟩⟩
    | undef _ hm | chanEncode _ _ hm | lineEmit _ _ _ hm | txDone _ hm => exact nomatch ha.symm.trans hm
  · obtain ⟨h', hj, hw⟩ := he.agent_work ha hh hi hf
    have hw := hw.imp_right (And.imp_right fun hcap (_ : a ≠ .host) => hcap)
    cases he.handleEffect hh hj with
    | kept => exact .inr ⟨h, ⟨hpre, hf, hj, ht⟩, hw⟩
    | chanEncode e hm tx call => exact .inr ⟨_, ⟨hpre, hf, hj, TxState.afterEncode_ne_idle tx e.status⟩, hw⟩
    | lineEmit sym rest hm tx => exact .inr ⟨_, ⟨hpre, hf, hj, tx⟩, hw⟩
    | txDone hm tx queue log => exact .inl (.inr ⟨_, log, .inl (List.mem_singleton.2 rfl)⟩)
    | _ => exact absurd ‹a = .host› ha

end Sys2Proof.Machine
end

section
/-! SUPPORT. A frame in flight along a weakly fair run (70_reset_and_hazards.md R272). -/

namespace Sys2Proof.Machine

open Sys2Proof

variable {h h' : Handle} {i j : Instance} {k m n : Nat} {r : Nat → State}

/-- At time m of the run the frame that instance k, then `i`, had in flight has ended. -/
def EndedBy (r : Nat → State) (k : Nat) (i : Instance) (m : Nat) : Prop :=
  ∃ j, (r m).instances[k]? = some j ∧ i.FrameEnded j

/-- At time m of the run that frame is still in flight, the handle then `h`. -/
def FlyingAt (r : Nat → State) (k : Nat) (i : Instance) (m : Nat) (h : Handle) : Prop :=
  ∃ j, (r m).instances[k]? = some j ∧ i.FrameStays j h

/-- At time n the run takes a step of the Channel, offered capacity, or of the Line of instance k with handle `h`. -/
def Serves (r : Nat → State) (n k : Nat) (h : Handle) : Prop :=
  ∃ a i, Takes r n k a ∧ (r n).instances[k]? = some i ∧ a ≠ .host ∧ (a = .chanEncode → i.chanCap k h ≠ 0)

theorem FlyingAt.handleAt (hf : FlyingAt r k i m h) : HandleAt r m k h :=
  have ⟨j, hj, hs⟩ := hf
  ⟨j, hj, hs.alive, hs.handle⟩

/-- What an instance holds of its own is all that the end of a frame speaks of. -/
theorem Instance.FrameEnded.of_own {j' : Instance} (ho : j'.own = j.own) (he : i.FrameEnded j) : i.FrameEnded j' := by
  obtain ⟨-, -, hfault, hlog⟩ := Instance.own_eq_iff.1 ho
  rwa [Instance.FrameEnded, hfault, hlog]

theorem Instance.FrameStays.of_own {j' : Instance} (ho : j'.own = j.own) (hs : i.FrameStays j h) :
    i.FrameStays j' h := by
  obtain ⟨-, hhandle, hfault, hlog⟩ := Instance.own_eq_iff.1 ho
  exact ⟨hlog ▸ hs.log, hfault.trans hs.alive, hhandle.trans hs.handle, hs.inFlight⟩

/-- In one time of a run a frame in flight ends, comes nearer its end, or is not served and its handle stays. -/
theorem FlyingAt.succ (hr : IsRun r) (hf : FlyingAt r k i n h) (hi : h.EncoderInv) :
    EndedBy r k i (n + 1) ∨ ∃ h', FlyingAt r k i (n + 1) h' ∧
      (h'.work < h.work ∨ h' = h ∧ ¬ Serves r n k h) := by
  obtain ⟨j, hj, hs⟩ := hf
  obtain ⟨j', hj', ⟨hhost, ho⟩ | ⟨a, x, htakes, he, ho⟩⟩ := hr.exists_at_succ hj
  · refine .inr ⟨h, ⟨j', hj', hs.of_own ho⟩, .inr ⟨rfl, ?_⟩⟩
    rintro ⟨a, -, htakes, -, ha, -⟩
    exact ha (hhost a htakes)
  · rcases he.inFlight hs.handle hs.inFlight hi with hend | ⟨h', hstays, hw⟩
    · exact .inl ⟨j', hj', (hs.ended hend).of_own ho⟩
    · refine .inr ⟨h', ⟨j', hj', (hs.trans hstays).of_own ho⟩, hw.imp_right (And.imp_right fun hidle => ?_)⟩
      rintro ⟨b, y, htakes', hy, hb, hcap⟩
      cases htakes.symm.trans htakes'
      cases hj.symm.trans hy
      obtain ⟨hchan, hzero⟩ := hidle hb
      exact hcap hchan hzero

/-- A fair run serves a frame whose handle stays as it is (70_reset_and_hazards.md R272): the Line where something is
queued, else the Channel, which then has free space, or the completion. -/
theorem WeaklyFair.serves (hw : WeaklyFair r k) (hf : ∀ m, n ≤ m → FlyingAt r k i m h)
    (hcap : 0 < h.cfg.symBufCap.toNat) : ∃ m, n ≤ m ∧ Serves r m k h := by
  obtain ⟨_, _, hnow⟩ := hf n le_rfl
  by_cases hq : h.fifo = []
  · rcases htx : h.txState with _ | _ | _
    · exact absurd htx hnow.inFlight
    · obtain ⟨m, hm, hturn⟩ := hw.channel n
      obtain ⟨j, hj, hs⟩ := hf m hm
      obtain ⟨htakes, h', ⟨j', hj', -, hh'⟩, hoffer⟩ := hturn ⟨h, (hf m hm).handleAt, htx, by simpa [Handle.free, hq]⟩
      cases hj.symm.trans hj'
      cases hs.handle.symm.trans hh'
      rw [State.turn_eq hj] at hoffer
      exact ⟨m, hm, .chanEncode, j, htakes, hj, nofun, fun _ => Nat.ne_of_gt hoffer⟩
    · obtain ⟨m, hm, hturn⟩ := hw.completion n
      obtain ⟨j, hj, -⟩ := hf m hm
      exact ⟨m, hm, .txDone, j, hturn ⟨h, (hf m hm).handleAt, htx, hq⟩, hj, nofun, nofun⟩
  · obtain ⟨m, hm, hturn⟩ := hw.line n
    obtain ⟨j, hj, -⟩ := hf m hm
    exact ⟨m, hm, .lineEmit, j, hturn ⟨h, (hf m hm).handleAt, hnow.inFlight, hq⟩, hj, nofun, nofun⟩

/-- The invariant of a handle along a run that has it. -/
theorem FlyingAt.inv (hf : FlyingAt r k i m h) (hinv : (r m).Inv) : ∃ par, h.Inv par := by
  obtain ⟨j, hj, hs⟩ := hf
  obtain ⟨-, -, hhandle, -⟩ := hinv j (List.mem_of_getElem? hj)
  exact ⟨j.par, hhandle h hs.handle⟩

/-- In a fair run a frame in flight sooner or later ends or comes nearer its end. -/
theorem WeaklyFair.progress (hw : WeaklyFair r k) (hr : IsRun r) (hinv : (r n).Inv) (hf : FlyingAt r k i n h) :
    ∃ m, n ≤ m ∧ (EndedBy r k i m ∨ ∃ h', FlyingAt r k i m h' ∧ h'.work < h.work) := by
  obtain ⟨par, hcfg, -, -, -, hi, -⟩ := hf.inv hinv
  obtain ⟨-, -, hcap, -⟩ := constructionFault_none.1 hcfg
  by_contra hnever
  push Not at hnever
  have stays (m : Nat) (hm : n ≤ m) (hfm : FlyingAt r k i m h) :
      FlyingAt r k i (m + 1) h ∧ ¬ Serves r m k h := by
    obtain ⟨hend, hnear⟩ := hnever (m + 1) (Nat.le_succ_of_le hm)
    rcases hfm.succ hr hi with he | ⟨h', hf', hlt | ⟨rfl, hserves⟩⟩
    · exact absurd he hend
    · exact absurd hlt (hnear h' hf').not_gt
    · exact ⟨hf', hserves⟩
  have always (m : Nat) (hm : n ≤ m) : FlyingAt r k i m h := by
    induction m, hm using Nat.le_induction with
    | base => exact hf
    | succ m hm ih => exact (stays m hm ih).1
  obtain ⟨m, hm, hserves⟩ := hw.serves always hcap
  exact (stays m hm (always m hm)).2 hserves

/-- In a fair run a frame in flight ends: the work left cannot be lowered for ever. -/
theorem WeaklyFair.exists_endedBy (hw : WeaklyFair r k) (hr : IsRun r) (hinv : (r n).Inv) (hf : FlyingAt r k i n h) :
    ∃ m, n ≤ m ∧ EndedBy r k i m := by
  induction hwork : h.work using Nat.strong_induction_on generalizing n h with
  | _ w ih =>
    obtain ⟨m, hm, hend | ⟨h', hf', hlt⟩⟩ := hw.progress hr hinv hf
    · exact ⟨m, hm, hend⟩
    · obtain ⟨m', hm', hend⟩ := ih h'.work (hwork ▸ hlt) (hr.inv hinv hm) hf' rfl
      exact ⟨m', hm.trans hm', hend⟩

end Sys2Proof.Machine
end

section
/-! PROOFS. The Channel and the Line (44_channel.md). -/

namespace Sys2Proof.Machine

open Sys2Proof

/-! ## A frame on the wire -/

/-- Settles O47: at (Sending, 0, 0) with an empty FIFO the whole frame is pending, and all that is pending reaches the
wire before Done. -/
theorem frameOnTheWire : Obligations.FrameOnTheWire := by
  intro s t h h' ms ⟨halive, hh⟩ hi hd htx hphase hcursor hfifo hrun hh' hidle
  have hpending : h.pending = h.frame := by
    simp [Handle.pending, htx, hfifo, Handle.rest, hphase, hcursor, Handle.frame]
  rw [← hpending]
  exact runAgents_log ⟨⟨halive, hh⟩, by simp [htx]⟩ hi hd hrun hh' hidle

/-! ## A frame in a fair run -/

/-- Settles O50: by the work left, which a fair run keeps lowering until the frame ends. -/
theorem fairRunsEndTheFrame : Obligations.FairRunsEndTheFrame := by
  intro r k n i h hr hw hinv hi halive hh htx
  obtain ⟨m, hm, j, hj, hend⟩ := hw.exists_endedBy hr hinv ⟨i, hi, List.prefix_rfl, halive, hh, htx⟩
  exact ⟨m, j, hm, hj, hend⟩

/-! ## The steps of the Channel and the Line -/

/-- Settles O14: by what each agent asks of FAULT, the handle and its channel registers. -/
theorem agentsAreEnabledAsStated : Obligations.AgentsAreEnabledAsStated :=
  fun _ => ⟨Instance.ready_host_iff, Instance.ready_chanEncode_iff, Instance.ready_lineEmit_iff,
    Instance.ready_txDone_iff⟩

/-- Settles O21: the call fails at the undef bit, and a failed call leaves its FAULT bit only. -/
theorem channelEncodeOfUndefRollsBack : Obligations.ChannelEncodeOfUndefRollsBack := by
  intro s h c ⟨halive, hh⟩ _ hphase hle hcap hbits hundef
  have hnone := encodeCall_eq_none_iff.2 ⟨hphase, c, hle, hcap, hbits, hundef⟩
  rw [State.agentStep_chanEncode hh, Instance.chanEncode_of_none halive hnone]
  rfl

/-- Settles O44: the call is its row of the table, which writes PHASE and the cursors only and leaves LATCH_CURSOR 0. -/
theorem channelEncodeFillsTheFifo : Obligations.ChannelEncodeFillsTheFifo := by
  intro s h ⟨halive, hh⟩ htx hi hd
  refine ⟨s.inst.chanCap_le s.slot h, ?_⟩
  have he := encodeCall_of_definedWithin hi hd
  obtain ⟨-, -, hlatch, -⟩ := encodeTable_encoderInv (cap := s.inst.chanCap s.slot h) hi (by simp [htx])
  rw [State.agentStep_chanEncode hh, Instance.chanEncode_of_some he, Handle.afterCall,
    (encodeCall_sameBut he).eq, hlatch, htx]
  rfl

/-- Settles O45: by the step's own case of a queue with a head. -/
theorem lineEmitsTheOldestSymbol : Obligations.LineEmitsTheOldestSymbol := by
  intro s h sym rest ⟨⟨_, hh⟩, _⟩ hq
  simp only [State.agentStep, hh, Instance.lineEmit, hq]
  rfl

/-- Settles O46: TX_DONE writes TX_STATE and LOG. -/
theorem txDoneDeliversTheNotification : Obligations.TxDoneDeliversTheNotification := by
  intro s h ⟨_, hh⟩ _ _
  simp only [State.agentStep, hh]
  rfl

/-- Settles O49: some step is ready in either state of flight; each that is lowers the work left, since the bytes read
are defined; without free space the FIFO is not empty, as SYM_BUF_CAP is not 0. -/
theorem agentStepsBringTheFrameNearerItsEnd : Obligations.AgentStepsBringTheFrameNearerItsEnd := by
  intro s h hs hinv hd
  obtain ⟨⟨halive, hh⟩, htx⟩ := id hs
  obtain ⟨hcfg, -, -, -, hi, -⟩ := hinv
  obtain ⟨-, -, hcap, -⟩ := constructionFault_none.1 hcfg
  refine ⟨hs.exists_ready, fun hfull => ?_, fun m hm hready => ?_⟩
  · refine Instance.ready_lineEmit_iff.2 ⟨halive, h, hh, htx, fun hempty => ?_⟩
    rw [Handle.free, hempty, List.length_nil] at hfull
    omega
  · obtain ⟨j, hj, -, heff⟩ := agentStep_effect hready hm
    have hf := heff.agent_alive hm hh hi hd halive
    obtain ⟨h', hh', hw⟩ := heff.agent_work hm hh hi hf
    rw [hj, State.setInst_inst]
    exact ⟨h', hh', hf, hw.imp_right fun ⟨heq, hchan, hzero⟩ => ⟨hchan, hzero, heq⟩⟩

end Sys2Proof.Machine
end

section
/-! SUPPORT. The schedule's choice, the Host's turn, and what FAULT and INITED ask of every command and agent
(60_exceptions.md). -/

namespace Sys2Proof.Machine

open Sys2Proof

variable {s s' t t' : State} {i j : Instance} {c : Instr} {m : Move} {choice : Choice} {k k' : Handle → State}

/-! ## The schedule's choice -/

/-- An enabled step at the head of the schedule stays there and is taken (log 3). -/
theorem State.schedule_of_allows {rest : List Choice} (hs : s.sched = choice :: rest) (ha : s.allows choice = true) :
    s.schedule = choice :: rest := by
  rw [State.schedule, hs, List.dropWhile_cons_of_neg (by simp [ha])]

theorem State.nextChoice_of_allows {rest : List Choice} (hs : s.sched = choice :: rest)
    (ha : s.allows choice = true) : s.nextChoice = some choice := by
  rw [State.nextChoice, State.schedule_of_allows hs ha]

/-- The free choice fails only where no step is enabled. -/
theorem State.enabled_of_freeChoice (hc : s.freeChoice = none) : s.enabled = [] := by
  rw [State.freeChoice] at hc
  split at hc
  · assumption
  · cases hc
  · cases hc

/-- Without a choice no agent of any instance has an enabled step (60_exceptions.md R252). -/
theorem State.not_ready_of_nextChoice (hc : s.nextChoice = none) (hi : i ∈ s.instances) (m : Move) :
    i.ready m = false := by
  have hnone : s.enabled = [] := by
    rw [State.nextChoice] at hc
    split at hc
    · cases hc
    · exact State.enabled_of_freeChoice hc
  obtain ⟨n, hn⟩ := List.mem_iff_getElem?.1 hi
  refine Bool.eq_false_iff.2 fun hr => ?_
  have hmem : (⟨n, m⟩ : Choice) ∈ s.enabled := State.mem_enabled.2 (State.allows_iff.2 ⟨i, hn, hr⟩)
  rw [hnone] at hmem
  cases hmem

/-! ## The chosen step -/

/-- The instance in focus is the one at its own index. -/
theorem State.focus_self (s : State) : s.focus s.slot = s := by
  simp [State.focus, State.instances, State.slot]

/-- The next command, taken off the program (30_encoding.md R80). -/
theorem issueNext_of_command {p : CommandWords} {rest : List CommandWords} (hp : s.inst.prog = p :: rest)
    (hd : decode p = .command c) : issueNext s = exec c (s.setInst { s.inst with prog := rest }) := by
  simp only [issueNext, hp, hd]

theorem exists_next_of_exec (c : Instr) (s : State) : ∃ t, exec c s = .next t := by
  obtain ⟨j, hj, -⟩ := exec_effect c s
  exact ⟨_, hj⟩

/-- A Host with a command to issue does not stop the machine, whatever its words spell (30_encoding.md R81). -/
theorem exists_next_of_issueNext (hp : s.inst.prog ≠ []) : ∃ t, issueNext s = .next t := by
  obtain ⟨p, rest, hp⟩ := List.exists_cons_of_ne_nil hp
  rcases hd : decode p with c | why
  · rw [issueNext_of_command hp hd]
    exact exists_next_of_exec c _
  · exact ⟨_, issueNext_of_illegal hp hd⟩

theorem exists_next_of_runMove (hr : s.inst.ready m = true) : ∃ t, runMove m s = .next t := by
  by_cases hm : m = .host
  · subst hm
    exact exists_next_of_issueNext (Instance.ready_host_iff.1 hr)
  · exact ⟨_, runMove_agent hm s⟩

/-- Where the schedule has a choice the machine does not stop. -/
theorem exists_next_of_nextChoice (hc : s.nextChoice = some choice) : ∃ t, step s = .next t := by
  obtain ⟨i, hi, hr⟩ := State.nextChoice_ready hc
  rw [step_of_nextChoice hc]
  have hinst : (s.turn choice).inst = i := State.focus_inst hi
  exact exists_next_of_runMove (hinst ▸ hr)

/-! ## A placed word -/

theorem decode_of_decodeTableWord {nbits w : Nat} (hw : decodeTableWord nbits w = some c) :
    decode (CommandWords.ofBits nbits w) = .command c := by
  rw [decodeTableWord] at hw
  split at hw
  · rename_i hd
    rw [hd, Option.some.inj hw]
  · cases hw

/-- A placed word makes its Host ready. -/
theorem State.withFetchWord_allows (s : State) (nbits w : Nat) :
    (s.withFetchWord nbits w).allows ⟨s.slot, .host⟩ = true :=
  State.allows_iff.2 ⟨_, State.instances_slot (s.withFetchWord nbits w), rfl⟩

/-- The Host's turn for a placed word takes itself off the schedule. -/
theorem State.withFetchWord_turn (s : State) (nbits w : Nat) :
    (s.withFetchWord nbits w).turn ⟨s.slot, .host⟩
      = { s.withFetchWord nbits w with sched := s.sched, turns := s.turns + 1 } := by
  have hfocus : (s.withFetchWord nbits w).focus s.slot = s.withFetchWord nbits w := State.focus_self _
  rw [State.turn, State.schedule_of_allows rfl (s.withFetchWord_allows nbits w), hfocus]
  rfl

/-! ## FAULT and INITED -/

/-- Every Channel and Line step asks that the instance is initialised and not quiescent (60_exceptions.md R232,
R236). -/
theorem Instance.live_of_ready (hr : i.ready m = true) (hm : m ≠ .host) : i.fault = 0 ∧ i.handle ≠ none := by
  cases m with
  | host => exact absurd rfl hm
  | chanEncode =>
    obtain ⟨hf, h, hh, -⟩ := Instance.ready_chanEncode_iff.1 hr
    exact ⟨hf, by simp [hh]⟩
  | lineEmit =>
    obtain ⟨hf, h, hh, -⟩ := Instance.ready_lineEmit_iff.1 hr
    exact ⟨hf, by simp [hh]⟩
  | txDone =>
    obtain ⟨hf, h, hh, -⟩ := Instance.ready_txDone_iff.1 hr
    exact ⟨hf, by simp [hh]⟩

/-- Quiescence is tested before every other check of a command (60_exceptions.md R232, effect 4; log 14). -/
theorem exec_quiescent (c : Instr) (hf : s.inst.fault ≠ 0) : exec c s = .next (s.answer .faulted) := by
  cases c with
  | init => exact congrArg _ (State.ifAlive_quiescent hf)
  | stop => exact congrArg _ (State.ifInited_quiescent hf)
  | deinit | setPixel | transmit | reset | encode => exact congrArg _ (State.ifIdle_quiescent hf)

/-! ## Other instances -/

theorem State.setInst_instances_par (hj : j.par = s.inst.par) :
    (s.setInst j).instances.map Instance.par = s.instances.map Instance.par := by
  simp [State.instances, hj]

theorem State.answer_inst_congr (hi : s.inst = s'.inst) (r : Reply) : (s.answer r).inst = (s'.answer r).inst := by
  simp only [State.answer, State.setInst_inst, hi]

theorem State.setHandle_inst_congr (hi : s.inst = s'.inst) (o : Option Handle) :
    (s.setHandle o).inst = (s'.setHandle o).inst := by
  simp only [State.setHandle, State.setInst_inst, hi]

theorem State.setDraws_inst_congr (hi : s.inst = s'.inst) (d : Draws) : (s.setDraws d).inst = (s'.setDraws d).inst := by
  simp only [State.setDraws, State.setInst_inst, hi]

theorem State.raise_inst_congr (hi : s.inst = s'.inst) (f : FaultCode) : (s.raise f).inst = (s'.raise f).inst :=
  State.answer_inst_congr (congrArg (Instance.raise · f) hi) _

/-- The checks before an effect read the instance in focus alone (60_exceptions.md R240). -/
theorem State.ifAlive_inst_congr (hi : s.inst = s'.inst) (ht : t.inst = t'.inst) :
    (s.ifAlive t).inst = (s'.ifAlive t').inst := by
  by_cases hf : s.inst.fault = 0
  · rwa [State.ifAlive_alive hf, State.ifAlive_alive (hi ▸ hf)]
  · rw [State.ifAlive_quiescent hf, State.ifAlive_quiescent (hi ▸ hf)]
    exact State.answer_inst_congr hi _

theorem State.ifInited_inst_congr (hi : s.inst = s'.inst) (hk : ∀ h, (k h).inst = (k' h).inst) :
    (s.ifInited k).inst = (s'.ifInited k').inst := by
  refine State.ifAlive_inst_congr hi ?_
  rw [← hi]
  cases s.inst.handle with
  | none => exact State.raise_inst_congr hi _
  | some h => exact hk h

theorem State.ifIdle_inst_congr (f : FaultCode) (hi : s.inst = s'.inst) (hk : ∀ h, (k h).inst = (k' h).inst) :
    (s.ifIdle f k).inst = (s'.ifIdle f k').inst := by
  refine State.ifInited_inst_congr hi fun h => ?_
  split
  · exact hk h
  · exact State.raise_inst_congr hi _

/-- What a command other than INIT leaves in focus is a function of the instance in focus and its index, which the draws
beyond those given ahead are applied to (60_exceptions.md R250; log 17). -/
theorem exec_inst_congr (hc : ∀ cfg, c ≠ .init cfg) (hi : s.inst = s'.inst) (hslot : s.slot = s'.slot) :
    ∃ t t', exec c s = .next t ∧ exec c s' = .next t' ∧ t.inst = t'.inst := by
  have handle_congr (o : Option Handle) (r : Reply) :
      ((s.setHandle o).answer r).inst = ((s'.setHandle o).answer r).inst :=
    State.answer_inst_congr (State.setHandle_inst_congr hi o) r
  cases c with
  | init cfg => exact absurd rfl (hc cfg)
  | deinit => exact ⟨_, _, rfl, rfl, State.ifIdle_inst_congr _ hi fun _ => handle_congr none .ok⟩
  | reset => exact ⟨_, _, rfl, rfl, State.ifIdle_inst_congr _ hi fun h => handle_congr (some h.rewind) .ok⟩
  | setPixel index r g b =>
    refine ⟨_, _, rfl, rfl, State.ifIdle_inst_congr _ hi fun h => ?_⟩
    split
    · rw [← hi]
      exact handle_congr _ .ok
    · exact State.answer_inst_congr hi _
  | encode cap =>
    refine ⟨_, _, rfl, rfl, State.ifIdle_inst_congr _ hi fun h => ?_⟩
    split
    · exact State.raise_inst_congr hi _
    · exact handle_congr _ _
  | transmit =>
    refine ⟨_, _, rfl, rfl, State.ifIdle_inst_congr _ hi fun h => ?_⟩
    dsimp only
    rw [← hi, ← hslot]
    have hdrawn := State.setDraws_inst_congr hi s.inst.draws.pastChanAccept
    split
    · exact State.answer_inst_congr (State.setHandle_inst_congr hdrawn _) .ok
    · exact State.answer_inst_congr hdrawn .channelBusy
  | stop =>
    refine ⟨_, _, rfl, rfl, State.ifInited_inst_congr hi fun h => ?_⟩
    split
    · exact State.answer_inst_congr hi .ok
    · rw [← hi, ← hslot]
      exact State.answer_inst_congr rfl .ok

end Sys2Proof.Machine
end

section
/-! PROOFS. Steps, faults and the instances (60_exceptions.md). -/

namespace Sys2Proof.Machine

open Sys2Proof

/-! ## A step of the system -/

/-- Settles O13: the choice is enabled, an enabled step alone on the schedule is the choice, and without a choice none
is enabled. -/
theorem stepTakesAnyEnabledStep : Obligations.StepTakesAnyEnabledStep := by
  refine ⟨fun s c hc => State.nextChoice_ready hc, fun s c i hi hr => ?_, fun s => ?_⟩
  · exact State.nextChoice_of_allows rfl (State.allows_iff.2 ⟨i, hi, hr⟩)
  · rcases hc : s.nextChoice with _ | c
    · exact .inr ⟨by rw [step, hc], fun i => State.not_ready_of_nextChoice hc⟩
    · exact .inl (exists_next_of_nextChoice hc)

/-- Settles O9: the Host's turn takes the words off the program and runs the command they decode to. -/
theorem stepRunsTheDecodedCommand : Obligations.StepRunsTheDecodedCommand := by
  intro s k i p rest c hc hi hp hd
  rw [step_of_nextChoice hc, State.turn_eq hi, runMove, issueNext_of_command hp hd]
  rfl

/-- Settles O10: a Channel or Line turn is the agent's own step. -/
theorem stepRunsTheChosenAgentStep : Obligations.StepRunsTheChosenAgentStep := by
  intro s k i m hc hm hi
  rw [step_of_nextChoice hc, State.turn_eq hi, runMove_agent hm]

/-- Settles O11: the Host at the head of the schedule is chosen, its turn and the placed word are used up. -/
theorem stepRunsThePlacedWord : Obligations.StepRunsThePlacedWord := by
  intro s nbits w c hw
  rw [step_of_nextChoice (State.nextChoice_of_allows rfl (s.withFetchWord_allows nbits w)), s.withFetchWord_turn,
    runMove, issueNext_of_command rfl (decode_of_decodeTableWord hw)]
  rfl

/-! ## Commands and FAULT -/

/-- Settles O15: by what a command can do, all of it a next state. -/
theorem everyCommandHasANextState : Obligations.EveryCommandHasANextState :=
  exists_next_of_exec

/-- Settles O16: quiescence is tested first, by every command and by every agent. -/
theorem quiescentInstanceOnlyAnswersFaulted : Obligations.QuiescentInstanceOnlyAnswersFaulted := by
  refine fun c s hf => ⟨?_, fun m hm => ?_⟩
  · rw [exec_quiescent c hf, State.answer_eq_ended .faulted rfl]
  · exact Bool.eq_false_iff.2 fun hr => hf (Instance.live_of_ready hr hm).1

/-- Settles O17: INITED is tested before a command's own checks, and by every agent. -/
theorem commandBeforeInitFaults : Obligations.CommandBeforeInitFaults :=
  ⟨fun _ _ hb hc => exec_blank hb hc,
    fun _ hh _ hm => Bool.eq_false_iff.2 fun hr => (Instance.live_of_ready hr hm).2 hh⟩

/-! ## Several instances -/

/-- Settles O54: a step writes the chosen instance only, and not its parameters. -/
theorem instancesShareNoState : Obligations.InstancesShareNoState := by
  intro s t c hc hs
  obtain ⟨c', i, j, hc', hi, -, rfl, -, hpar, -⟩ := step_effect hs
  obtain rfl : c = c' := Option.some.inj (hc.symm.trans hc')
  have hinst : (s.turn c).inst = i := State.focus_inst hi
  refine ⟨?_, fun k hk => turn_setInst_other hi hk⟩
  rw [State.setInst_instances_par (hpar.trans (congrArg Instance.par hinst.symm)), State.turn_instances]

/-- Settles O55: the checks and the effects read the instance in focus and its index alone. -/
theorem commandsDoNotReadOtherInstances : Obligations.CommandsDoNotReadOtherInstances := by
  intro c s s' t t' hc hi hslot ht ht'
  obtain ⟨u, u', hu, hu', heq⟩ := exec_inst_congr hc hi hslot
  rw [hu, Host.Outcome.next.injEq] at ht
  rw [hu', Host.Outcome.next.injEq] at ht'
  rw [← ht, ← ht', heq]

end Sys2Proof.Machine
end

section
/-! PROOFS. The system at power-on (70_reset_and_hazards.md section 1). -/

namespace Sys2Proof.Machine

open Sys2Proof

/-- The parameters at reset are within the bounds of 00_scope.md R10. -/
theorem Params.atReset_wf : Params.atReset.wf := by decide

/-- Without a handle, a fault or an event only the parameters' bounds are left to ask. -/
theorem Instance.powerOn_inv {par : Params} (hp : par.wf) : (Instance.powerOn par).Inv := by
  refine ⟨hp, fun h hh => ?_, show (0 : U32).toNat < 512 by decide, fun s hs => ?_⟩
  · cases hh
  · cases hs

/-- The instance in focus is the only one at power-on. -/
theorem State.reset_instances : State.reset.instances = [Instance.powerOn Params.atReset] := rfl

/-- Settles O51: the instance in focus at reset is one at power-on, given field by field. -/
theorem powerOnState : Obligations.PowerOnState :=
  ⟨rfl, rfl, rfl, rfl⟩

/-- Settles O52: NUM_CHANNELS at reset is 1, the one instance there is, and that one is at power-on. -/
theorem invariantHoldsAtReset : Obligations.InvariantHoldsAtReset := by
  intro i hi
  rw [State.reset_instances, List.mem_singleton] at hi
  subst hi
  exact ⟨rfl, Instance.powerOn_inv Params.atReset_wf⟩

end Sys2Proof.Machine
end

section
/-! PROOFS. Symbol words as Symbols (30_encoding.md section 1), the words of results (section 4) and the tick count of a
duration (40_symbols.md section 2). -/

namespace Sys2Proof.Machine

open Sys2Proof

/-! ## Symbols of words -/

theorem Symbol.ofWord_duration0 (w : U32) : (Symbol.ofWord w).duration0.toNat = w.toNat % 2 ^ 15 :=
  BitVec.extractLsb'_toNat 0 15 w

theorem Symbol.ofWord_duration1 (w : U32) : (Symbol.ofWord w).duration1.toNat = w.toNat / 2 ^ 16 % 2 ^ 15 := by
  rw [Symbol.ofWord, BitVec.extractLsb'_toNat, Nat.shiftRight_eq_div_pow]

theorem Symbol.ofWord_level0 (w : U32) : (Symbol.ofWord w).level0.toNat = w.toNat / 2 ^ 15 % 2 :=
  Nat.toNat_testBit w.toNat 15

/-- The top bit has none above it. -/
theorem Symbol.ofWord_level1 (w : U32) : (Symbol.ofWord w).level1.toNat = w.toNat / 2 ^ 31 := by
  have htop : w.toNat / 2 ^ 31 < 2 := Nat.div_lt_of_lt_mul w.isLt
  exact (Nat.toNat_testBit w.toNat 31).trans (Nat.mod_eq_of_lt htop)

/-- The numbers of its four fields tell a Symbol. -/
theorem Symbol.eq_of_toNat_eq {s t : Symbol} (hl0 : s.level0.toNat = t.level0.toNat)
    (hd0 : s.duration0.toNat = t.duration0.toNat) (hl1 : s.level1.toNat = t.level1.toNat)
    (hd1 : s.duration1.toNat = t.duration1.toNat) : s = t := by
  cases s
  cases t
  have level_inj : Function.Injective Bool.toNat := Function.LeftInverse.injective Bool.ofNat_toNat
  rw [Symbol.mk.injEq]
  exact ⟨level_inj hl0, BitVec.eq_of_toNat_eq hd0, level_inj hl1, BitVec.eq_of_toNat_eq hd1⟩

/-- The four fields are the digits of the word's number, whose sum of weights it is (R70). -/
theorem Symbol.word_ofWord (w : U32) : (Symbol.ofWord w).word = w := by
  apply BitVec.eq_of_toNat_eq
  rw [symbolWordPlacesItsFields.1, Symbol.ofWord_duration0, Symbol.ofWord_level0, Symbol.ofWord_duration1,
    Symbol.ofWord_level1]
  omega

/-- Each field is below the weight of the field above it, so the digits of the sum of R70 are the fields. -/
theorem Symbol.ofWord_word (s : Symbol) : Symbol.ofWord s.word = s := by
  have hsum := symbolWordPlacesItsFields.1 s
  have hl0 := s.level0.toNat_lt
  have hd0 := s.duration0.isLt
  have hl1 := s.level1.toNat_lt
  have hd1 := s.duration1.isLt
  apply Symbol.eq_of_toNat_eq
  · rw [Symbol.ofWord_level0]
    omega
  · rw [Symbol.ofWord_duration0]
    omega
  · rw [Symbol.ofWord_level1]
    omega
  · rw [Symbol.ofWord_duration1]
    omega

/-- Settles O6: a word's number has its Symbol's fields for digits, and those are any Symbol's. -/
theorem everyWordIsOneSymbol : Obligations.EveryWordIsOneSymbol :=
  ⟨fun w => ⟨Symbol.ofWord_duration0 w, Symbol.ofWord_level0 w, Symbol.ofWord_duration1 w, Symbol.ofWord_level1 w,
    Symbol.word_ofWord w⟩, Symbol.ofWord_word⟩

/-! ## The words of results -/

/-- STATUS stands above COUNT, and nothing above STATUS (R84). -/
theorem encodeResultWord_toNat {count : Nat} (hcount : count < 2 ^ 32) (st : Status) :
    (encodeResultWord count st).toNat = st.code.toNat * 2 ^ 32 + count := by
  rw [encodeResultWord, BitVec.toNat_append, BitVec.toNat_ofNat, Nat.mod_eq_of_lt hcount,
    ← Nat.shiftLeft_add_eq_or_of_lt hcount, Nat.shiftLeft_eq]
  cases st <;> rfl

/-- Settles O7: the codes are read off the tables, and an ENCODE result word is the sum of its two fields. -/
theorem resultCodesAndEncodeResultWord : Obligations.ResultCodesAndEncodeResultWord := by
  refine ⟨rfl, fun _ _ _ => rfl, rfl, rfl, fun _ => rfl, rfl, rfl, rfl, rfl, fun count hcount => ?_⟩
  rw [encodeResultWord_toNat hcount, encodeResultWord_toNat hcount, encodeResultWord_toNat hcount]
  exact ⟨Nat.zero_add count, rfl, rfl⟩

/-! ## Tick counts -/

/-- The product of two u32 fits 64 bits (40_symbols.md R102). -/
theorem u32_mul_u32_lt (x y : U32) : x.toNat * y.toNat < 2 ^ 64 :=
  calc x.toNat * y.toNat
      < 2 ^ 32 * 2 ^ 32 := Nat.mul_lt_mul'' x.isLt y.isLt
    _ = 2 ^ 64 := (pow_add 2 32 32).symm

/-- Truncation takes the greatest count that does not exceed the quotient (R102). -/
theorem ticksOf_bounds (hz ns : U32) : ticksOf hz ns * 1000000000 ≤ ns.toNat * hz.toNat ∧
    ns.toNat * hz.toNat < (ticksOf hz ns + 1) * 1000000000 :=
  ⟨Nat.div_mul_le_self _ _, Nat.lt_mul_of_div_lt (Nat.lt_succ_self _) (by decide)⟩

/-- A duration shorter than a tick has none (R102). -/
theorem ticksOf_eq_zero {hz ns : U32} (h : ns.toNat * hz.toNat < 1000000000) : ticksOf hz ns = 0 :=
  Nat.div_eq_of_lt h

/-- Settles O23: the count is a truncated quotient by 10^9, which at the examples' resolution is one by 100. -/
theorem ticksAreTruncated : Obligations.TicksAreTruncated := by
  refine ⟨fun hz ns => ?_, ?_⟩
  · obtain ⟨hle, hlt⟩ := ticksOf_bounds hz ns
    exact ⟨hle, hlt, u32_mul_u32_lt ns hz, ticksOf_eq_zero⟩
  · simp only [ticksOf_ten_megahertz]
    decide

end Sys2Proof.Machine
end
